-- ==== Sys2Proof/Word.lean ====
section
/-! DEFINITION. The machine's words (00_scope.md R7: every value is unsigned) and the index of a general register. -/

namespace Sys2Proof

/-- A byte: a general register, a memory cell, a timer (10_state.md R21, R27, R31). -/
abbrev Byte := BitVec 8

/-- Sixteen bits: I, PC, a return address, an instruction word (10_state.md R23, R24, R26; 30_encoding.md R91). -/
abbrev Word := BitVec 16

/-- Four bits: a field of an instruction word (30_encoding.md R93). -/
abbrev Nibble := BitVec 4

/-- The field `nnn` (30_encoding.md R93). -/
abbrev Addr12 := BitVec 12

/-- The number of a general register, V0 to VF (10_state.md R21); also the number of a key (R30). -/
abbrev Reg := Fin 16

/-- VF, the register that doubles as the flag (10_state.md R22). -/
abbrev Reg.vf : Reg := 15

end Sys2Proof
end

