-- ==== Sys2Proof/Syntax.lean ====
section
/-! DEFINITION. The 34 instructions of 30_encoding.md R96 (one constructor per row of spec/opcode_table.json), with the
fields of R93: every value of every field is legal (R94), so no term of `Instr` is ill-formed. -/

namespace Sys2Proof

/-- The instruction set, in the order of 30_encoding.md R96. -/
inductive Instr where
  /-- 00E0 `CLS` (R201). -/
  | cls
  /-- 00EE `RET` (R132). -/
  | ret
  /-- 1nnn `JP addr` (R130). -/
  | jp (nnn : Addr12)
  /-- 2nnn `CALL addr` (R131). -/
  | call (nnn : Addr12)
  /-- 3xkk `SE Vx, byte` (R133). -/
  | seByte (x : Reg) (kk : Byte)
  /-- 4xkk `SNE Vx, byte` (R134). -/
  | sneByte (x : Reg) (kk : Byte)
  /-- 5xy0 `SE Vx, Vy` (R135). -/
  | seReg (x y : Reg)
  /-- 6xkk `LD Vx, byte` (R151). -/
  | ldByte (x : Reg) (kk : Byte)
  /-- 7xkk `ADD Vx, byte` (R152). -/
  | addByte (x : Reg) (kk : Byte)
  /-- 8xy0 `LD Vx, Vy` (R153). -/
  | ldReg (x y : Reg)
  /-- 8xy1 `OR Vx, Vy` (R154). -/
  | orReg (x y : Reg)
  /-- 8xy2 `AND Vx, Vy` (R155). -/
  | andReg (x y : Reg)
  /-- 8xy3 `XOR Vx, Vy` (R156). -/
  | xorReg (x y : Reg)
  /-- 8xy4 `ADD Vx, Vy` (R157). -/
  | addReg (x y : Reg)
  /-- 8xy5 `SUB Vx, Vy` (R158). -/
  | subReg (x y : Reg)
  /-- 8xy6 `SHR Vx {, Vy}` (R159). -/
  | shr (x y : Reg)
  /-- 8xy7 `SUBN Vx, Vy` (R160). -/
  | subn (x y : Reg)
  /-- 8xyE `SHL Vx {, Vy}` (R161). -/
  | shl (x y : Reg)
  /-- 9xy0 `SNE Vx, Vy` (R136). -/
  | sneReg (x y : Reg)
  /-- Annn `LD I, addr` (R181). -/
  | ldI (nnn : Addr12)
  /-- Bnnn `JP V0, addr` (R139). -/
  | jpV0 (nnn : Addr12)
  /-- Cxkk `RND Vx, byte` (R166). -/
  | rnd (x : Reg) (kk : Byte)
  /-- Dxyn `DRW Vx, Vy, nibble` (R203). -/
  | drw (x y : Reg) (n : Nibble)
  /-- Ex9E `SKP Vx` (R231). -/
  | skp (x : Reg)
  /-- ExA1 `SKNP Vx` (R232). -/
  | sknp (x : Reg)
  /-- Fx07 `LD Vx, DT` (R222). -/
  | ldVxDt (x : Reg)
  /-- Fx0A `LD Vx, K` (R233). -/
  | ldVxK (x : Reg)
  /-- Fx15 `LD DT, Vx` (R220). -/
  | ldDtVx (x : Reg)
  /-- Fx18 `LD ST, Vx` (R221). -/
  | ldStVx (x : Reg)
  /-- Fx1E `ADD I, Vx` (R182). -/
  | addI (x : Reg)
  /-- Fx29 `LD F, Vx` (R186). -/
  | ldF (x : Reg)
  /-- Fx33 `LD B, Vx` (R183). -/
  | ldB (x : Reg)
  /-- Fx55 `LD [I], Vx` (R184). -/
  | storeRegs (x : Reg)
  /-- Fx65 `LD Vx, [I]` (R185). -/
  | loadRegs (x : Reg)
  deriving DecidableEq, Repr

end Sys2Proof
end

