-- ==== Sys2Proof/WellFormed.lean ====
section
/-! DEFINITION. The checks on what reaches the machine from outside: an instruction word (30_encoding.md R96, R104), a
program image (60_exceptions.md R263) and a key index (R264). A term of `Instr` needs no check: its field types hold
exactly the values of 30_encoding.md R93, all of them legal (R94). The table here is written from R96's match and mask
columns and is independent of the decoder, which is written from R95; that they agree is a claim. -/

namespace Sys2Proof

/-- A row of 30_encoding.md R96: a word `w` matches iff `w & mask = value`. -/
structure Row where
  mask  : Word
  value : Word
  deriving DecidableEq, Repr

/-- Whether a word matches a row (30_encoding.md R96). -/
def Row.matchesWord (r : Row) (w : Word) : Bool := w &&& r.mask == r.value

/-- The row of each instruction in 30_encoding.md R96. -/
def Instr.row : Instr → Row
  | .cls         => ⟨0xFFFF, 0x00E0⟩
  | .ret         => ⟨0xFFFF, 0x00EE⟩
  | .jp _        => ⟨0xF000, 0x1000⟩
  | .call _      => ⟨0xF000, 0x2000⟩
  | .seByte _ _  => ⟨0xF000, 0x3000⟩
  | .sneByte _ _ => ⟨0xF000, 0x4000⟩
  | .seReg _ _   => ⟨0xF00F, 0x5000⟩
  | .ldByte _ _  => ⟨0xF000, 0x6000⟩
  | .addByte _ _ => ⟨0xF000, 0x7000⟩
  | .ldReg _ _   => ⟨0xF00F, 0x8000⟩
  | .orReg _ _   => ⟨0xF00F, 0x8001⟩
  | .andReg _ _  => ⟨0xF00F, 0x8002⟩
  | .xorReg _ _  => ⟨0xF00F, 0x8003⟩
  | .addReg _ _  => ⟨0xF00F, 0x8004⟩
  | .subReg _ _  => ⟨0xF00F, 0x8005⟩
  | .shr _ _     => ⟨0xF00F, 0x8006⟩
  | .subn _ _    => ⟨0xF00F, 0x8007⟩
  | .shl _ _     => ⟨0xF00F, 0x800E⟩
  | .sneReg _ _  => ⟨0xF00F, 0x9000⟩
  | .ldI _       => ⟨0xF000, 0xA000⟩
  | .jpV0 _      => ⟨0xF000, 0xB000⟩
  | .rnd _ _     => ⟨0xF000, 0xC000⟩
  | .drw _ _ _   => ⟨0xF000, 0xD000⟩
  | .skp _       => ⟨0xF0FF, 0xE09E⟩
  | .sknp _      => ⟨0xF0FF, 0xE0A1⟩
  | .ldVxDt _    => ⟨0xF0FF, 0xF007⟩
  | .ldVxK _     => ⟨0xF0FF, 0xF00A⟩
  | .ldDtVx _    => ⟨0xF0FF, 0xF015⟩
  | .ldStVx _    => ⟨0xF0FF, 0xF018⟩
  | .addI _      => ⟨0xF0FF, 0xF01E⟩
  | .ldF _       => ⟨0xF0FF, 0xF029⟩
  | .ldB _       => ⟨0xF0FF, 0xF033⟩
  | .storeRegs _ => ⟨0xF0FF, 0xF055⟩
  | .loadRegs _  => ⟨0xF0FF, 0xF065⟩

/-- One instruction of each row, every field zero, in the order of 30_encoding.md R96. -/
def Instr.representatives : List Instr :=
  List.flatten
  [ [.cls, .ret, .jp 0, .call 0, .seByte 0 0, .sneByte 0 0, .seReg 0 0, .ldByte 0 0, .addByte 0 0],
    [.ldReg 0 0, .orReg 0 0, .andReg 0 0, .xorReg 0 0, .addReg 0 0, .subReg 0 0, .shr 0 0, .subn 0 0, .shl 0 0],
    [.sneReg 0 0, .ldI 0, .jpV0 0, .rnd 0 0, .drw 0 0 0, .skp 0, .sknp 0],
    [.ldVxDt 0, .ldVxK 0, .ldDtVx 0, .ldStVx 0, .addI 0, .ldF 0, .ldB 0, .storeRegs 0, .loadRegs 0] ]

/-- The 34 rows of 30_encoding.md R96. -/
def rows : List Row := Instr.representatives.map Instr.row

/-- Check of an instruction word: it matches a row of 30_encoding.md R96; the words that fail are the illegal set of
R104. -/
def legalWord (w : Word) : Bool := rows.any (·.matchesWord w)

/-- The illegal words of 30_encoding.md R104, by family, as that rule's table lists them. -/
def illegalWord (w : Word) : Bool :=
  let family := w.toNat / 0x1000
  let low := w.toNat % 0x10
  let kk := w.toNat % 0x100
  match family with
  | 0x0 => w != 0x00E0 && w != 0x00EE
  | 0x5 => low != 0
  | 0x8 => [0x8, 0x9, 0xA, 0xB, 0xC, 0xD, 0xF].contains low
  | 0x9 => low != 0
  | 0xE => !([0x9E, 0xA1].contains kk)
  | 0xF => !([0x07, 0x0A, 0x15, 0x18, 0x1E, 0x29, 0x33, 0x55, 0x65].contains kk)
  | _   => false

/-- Bytes of memory (00_scope.md R5 MEM_SIZE, 10_state.md R31). -/
def memSize : Nat := 4096

/-- First byte of a loaded program (00_scope.md R5 PROG_BASE). -/
def progBase : Nat := 0x200

/-- Check of a program image: `len <= 3584` (60_exceptions.md R263, 00_scope.md R5 MAX_ROM). -/
def imageFits (image : List Byte) : Bool := decide (image.length ≤ 3584)

/-- Check of the index of `set_key`: 0 to 15 (60_exceptions.md R264). -/
def keyIndexOk (index : Nat) : Bool := decide (index ≤ 15)

end Sys2Proof
end

