-- ==== Sys2Proof/Decode.lean ====
section
/-! DEFINITION. The decoder, a pure function of the word (30_encoding.md R95), total on any bytes and rejecting by name;
and the encoder, from the same formats (R92). The bit patterns are UNVERIFIED (the spec marks R92, R93, R96 as general
knowledge): log 8. -/

namespace Sys2Proof

/-- Why bytes are no instruction. A word outside the 34 rows is UnknownInstruction (30_encoding.md R104), named here by
the family whose pattern it misses. -/
inductive Illegal where
  /-- Fewer than two bytes: no word to decode (30_encoding.md R91). -/
  | truncated
  /-- 0x0000 to 0x0FFF except 00E0 and 00EE (R103). -/
  | family0 (w : Word)
  /-- 5xyN with N ≠ 0. -/
  | family5 (w : Word)
  /-- 8xyN with N in 8, 9, A, B, C, D, F. -/
  | family8 (w : Word)
  /-- 9xyN with N ≠ 0. -/
  | family9 (w : Word)
  /-- Exkk with kk not 9E or A1. -/
  | familyE (w : Word)
  /-- Fxkk with kk none of the nine low bytes. -/
  | familyF (w : Word)
  deriving DecidableEq, Repr

/-! ### Fields (30_encoding.md R93) -/

/-- `opcode[15:12]`. -/
def fieldFamily (w : Word) : Nibble := w.extractLsb' 12 4

/-- `opcode[11:8]` as a register number. -/
def fieldX (w : Word) : Reg := (w.extractLsb' 8 4).toFin

/-- `opcode[7:4]` as a register number. -/
def fieldY (w : Word) : Reg := (w.extractLsb' 4 4).toFin

/-- `opcode[3:0]`. -/
def fieldN (w : Word) : Nibble := w.extractLsb' 0 4

/-- `opcode[7:0]`. -/
def fieldKK (w : Word) : Byte := w.extractLsb' 0 8

/-- `opcode[11:0]`. -/
def fieldNNN (w : Word) : Addr12 := w.extractLsb' 0 12

/-! ### Decoding (30_encoding.md R95, R97) -/

/-- Family 8, keyed on the low nibble. -/
def decodeFamily8 (w : Word) : Except Illegal Instr :=
  if fieldN w = 0x0 then .ok (.ldReg (fieldX w) (fieldY w))
  else if fieldN w = 0x1 then .ok (.orReg (fieldX w) (fieldY w))
  else if fieldN w = 0x2 then .ok (.andReg (fieldX w) (fieldY w))
  else if fieldN w = 0x3 then .ok (.xorReg (fieldX w) (fieldY w))
  else if fieldN w = 0x4 then .ok (.addReg (fieldX w) (fieldY w))
  else if fieldN w = 0x5 then .ok (.subReg (fieldX w) (fieldY w))
  else if fieldN w = 0x6 then .ok (.shr (fieldX w) (fieldY w))
  else if fieldN w = 0x7 then .ok (.subn (fieldX w) (fieldY w))
  else if fieldN w = 0xE then .ok (.shl (fieldX w) (fieldY w))
  else .error (.family8 w)

/-- Family F, keyed on the low byte. -/
def decodeFamilyF (w : Word) : Except Illegal Instr :=
  if fieldKK w = 0x07 then .ok (.ldVxDt (fieldX w))
  else if fieldKK w = 0x0A then .ok (.ldVxK (fieldX w))
  else if fieldKK w = 0x15 then .ok (.ldDtVx (fieldX w))
  else if fieldKK w = 0x18 then .ok (.ldStVx (fieldX w))
  else if fieldKK w = 0x1E then .ok (.addI (fieldX w))
  else if fieldKK w = 0x29 then .ok (.ldF (fieldX w))
  else if fieldKK w = 0x33 then .ok (.ldB (fieldX w))
  else if fieldKK w = 0x55 then .ok (.storeRegs (fieldX w))
  else if fieldKK w = 0x65 then .ok (.loadRegs (fieldX w))
  else .error (.familyF w)

/-- The decoder: family 0 keyed on the whole word; 1, 2, 3, 4, 6, 7, A, B, C, D on the top nibble; 5, 8, 9 on the top
and bottom nibbles; E, F on the top nibble and the low byte (30_encoding.md R95). -/
def decodeWord (w : Word) : Except Illegal Instr :=
  match fieldFamily w with
  | 0x0#4 => if w = 0x00E0 then .ok .cls else if w = 0x00EE then .ok .ret else .error (.family0 w)
  | 0x1#4 => .ok (.jp (fieldNNN w))
  | 0x2#4 => .ok (.call (fieldNNN w))
  | 0x3#4 => .ok (.seByte (fieldX w) (fieldKK w))
  | 0x4#4 => .ok (.sneByte (fieldX w) (fieldKK w))
  | 0x5#4 => if fieldN w = 0 then .ok (.seReg (fieldX w) (fieldY w)) else .error (.family5 w)
  | 0x6#4 => .ok (.ldByte (fieldX w) (fieldKK w))
  | 0x7#4 => .ok (.addByte (fieldX w) (fieldKK w))
  | 0x8#4 => decodeFamily8 w
  | 0x9#4 => if fieldN w = 0 then .ok (.sneReg (fieldX w) (fieldY w)) else .error (.family9 w)
  | 0xA#4 => .ok (.ldI (fieldNNN w))
  | 0xB#4 => .ok (.jpV0 (fieldNNN w))
  | 0xC#4 => .ok (.rnd (fieldX w) (fieldKK w))
  | 0xD#4 => .ok (.drw (fieldX w) (fieldY w) (fieldN w))
  | 0xE#4 =>
    if fieldKK w = 0x9E then .ok (.skp (fieldX w))
    else if fieldKK w = 0xA1 then .ok (.sknp (fieldX w))
    else .error (.familyE w)
  | _ => decodeFamilyF w -- 0xF, the one nibble left

/-- The word of two bytes: the byte at the lower address is the high byte (20_memory.md R65, R66). -/
def wordOfBytes (hi lo : Byte) : Word := hi ++ lo

/-- Decoding from memory order: two bytes are taken, the rest is handed back (30_encoding.md R91). -/
def decodeBytes : List Byte → Except Illegal (Instr × List Byte)
  | hi :: lo :: rest =>
    match decodeWord (wordOfBytes hi lo) with
    | .ok i => .ok (i, rest)
    | .error e => .error e
  | _ => .error .truncated

/-! ### Encoding (30_encoding.md R92) -/

/-- Format NNN. -/
def formatNNN (family : Nibble) (nnn : Addr12) : Word := family ++ nnn

/-- Format XKK; format X is this one with a fixed low byte. -/
def formatXKK (family : Nibble) (x : Reg) (kk : Byte) : Word := family ++ (BitVec.ofFin x : Nibble) ++ kk

/-- Format XYN; format XY is this one with a fixed low nibble. -/
def formatXYN (family : Nibble) (x y : Reg) (n : Nibble) : Word :=
  family ++ (BitVec.ofFin x : Nibble) ++ (BitVec.ofFin y : Nibble) ++ n

/-- The word of an instruction (30_encoding.md R92, R96). -/
def encode : Instr → Word
  | .cls          => 0x00E0
  | .ret          => 0x00EE
  | .jp nnn       => formatNNN 0x1 nnn
  | .call nnn     => formatNNN 0x2 nnn
  | .seByte x kk  => formatXKK 0x3 x kk
  | .sneByte x kk => formatXKK 0x4 x kk
  | .seReg x y    => formatXYN 0x5 x y 0x0
  | .ldByte x kk  => formatXKK 0x6 x kk
  | .addByte x kk => formatXKK 0x7 x kk
  | .ldReg x y    => formatXYN 0x8 x y 0x0
  | .orReg x y    => formatXYN 0x8 x y 0x1
  | .andReg x y   => formatXYN 0x8 x y 0x2
  | .xorReg x y   => formatXYN 0x8 x y 0x3
  | .addReg x y   => formatXYN 0x8 x y 0x4
  | .subReg x y   => formatXYN 0x8 x y 0x5
  | .shr x y      => formatXYN 0x8 x y 0x6
  | .subn x y     => formatXYN 0x8 x y 0x7
  | .shl x y      => formatXYN 0x8 x y 0xE
  | .sneReg x y   => formatXYN 0x9 x y 0x0
  | .ldI nnn      => formatNNN 0xA nnn
  | .jpV0 nnn     => formatNNN 0xB nnn
  | .rnd x kk     => formatXKK 0xC x kk
  | .drw x y n    => formatXYN 0xD x y n
  | .skp x        => formatXKK 0xE x 0x9E
  | .sknp x       => formatXKK 0xE x 0xA1
  | .ldVxDt x     => formatXKK 0xF x 0x07
  | .ldVxK x      => formatXKK 0xF x 0x0A
  | .ldDtVx x     => formatXKK 0xF x 0x15
  | .ldStVx x     => formatXKK 0xF x 0x18
  | .addI x       => formatXKK 0xF x 0x1E
  | .ldF x        => formatXKK 0xF x 0x29
  | .ldB x        => formatXKK 0xF x 0x33
  | .storeRegs x  => formatXKK 0xF x 0x55
  | .loadRegs x   => formatXKK 0xF x 0x65

/-- The two bytes of a word in memory order, high byte first (20_memory.md R66). -/
def bytesOfWord (w : Word) : List Byte := [w.extractLsb' 8 8, w.extractLsb' 0 8]

/-- What the decoder reads from the table's numbering of an instruction: bit 0 is the least significant bit of the one
word; bits above `nbits` are 0. -/
def decodeTableWord (nbits w : Nat) : Option Instr :=
  match decodeBytes (bytesOfWord (BitVec.ofNat 16 (w % 2 ^ nbits))) with
  | .ok (i, _) => some i
  | .error _ => none

end Sys2Proof
end

