-- ==== Sys2Proof/Machine/State.lean ====
section
/-! DEFINITION. The state of the core as plain data (10_state.md R20), the ways a step can stop, and reset (R37). -/

namespace Sys2Proof.Machine

/-- MEM as the bytes that differ from their reset contents, addresses strictly rising (log 5; `Memory.wf` in Ops). -/
abbrev Memory := List Host.Cell

/-- FB[y][x]: 32 rows, top to bottom, of 64 pixels, left to right (10_state.md R29). -/
abbrev Framebuffer := Vector (Vector Bool 64) 32

/-- KEY and KEY_PREV: `true` is pressed (10_state.md R30, R34). -/
abbrev Keys := Vector Bool 16

/-- Exactly the state of 10_state.md R20, and `draws`, the model's own. -/
structure State where
  /-- V0 to VF (R21); VF is `v[15]` (R22). -/
  v : Vector Byte 16
  /-- Index register I (R23). -/
  i : Word
  /-- Program counter (R24). -/
  pc : Word
  /-- Number of return addresses held (R25). -/
  sp : Byte
  /-- Return addresses (R26). -/
  stack : Vector Word 16
  /-- Delay timer (R27). -/
  dt : Byte
  /-- Sound timer (R28). -/
  st : Byte
  /-- Framebuffer (R29). -/
  fb : Framebuffer
  /-- Key latch (R30). -/
  key : Keys
  /-- Memory (R31). -/
  mem : Memory
  /-- WAIT, the awaiting-key flag (R34). -/
  wait : Bool
  /-- WAIT_X, destination of the pending key wait (R34). -/
  waitX : Reg
  /-- KEY_PREV, the sample edges are measured against (R34). -/
  keyPrev : Keys
  /-- FAULT, 0 is none (R35). -/
  fault : BitVec 3
  /-- FAULT_PC (R35). -/
  faultPc : Word
  /-- FAULT_OP (R35). -/
  faultOp : Word
  /-- How many random bytes RND has taken: picks the next free value `Config.rnd draws`. The model's own field, not the
  spec's (10_state.md R36); DESIGN CHOICE, log 1. -/
  draws : Nat
  deriving DecidableEq, Repr

/-- A step that stops the model itself. The spec's four fatal conditions are no constructors here: the spec describes
what they leave (60_exceptions.md R255), so taking one is a next state. -/
inductive Fault where
  /-- Raised by CALL and RET in a state with SP of 17 to 255: STACK has no such entry, and the spec says these values are
  never reached (10_state.md R25). DEDUCED, log 4. Safe: no run from reset gets there (`State.Inv`). -/
  | stackPointerRange
  deriving DecidableEq, Repr

/-- What the model gives no meaning. -/
inductive Refusal where
  /-- Raised by `exec` for an instruction with no meaning yet. Safe. No arm uses it. -/
  | notModelled (mnemonic : String)
  /-- Raised by `Session.apply` for a `load` that does not stand between a reset and the first step, or is a second one:
  the spec gives it no meaning and a model refuses it (20_memory.md R75, 70_reset_and_hazards.md R306, decision D26).
  Safe. Log 7. -/
  | loadOutOfOrder
  deriving DecidableEq, Repr

/-- The machine right after reset (10_state.md R37, 70_reset_and_hazards.md R300). No byte of memory is listed: every one
reads as its reset contents. -/
def State.reset : State where
  v := Vector.replicate 16 0x00
  i := 0x0000
  pc := 0x0200
  sp := 0
  stack := Vector.replicate 16 0x0000
  dt := 0
  st := 0
  fb := Vector.replicate 32 (Vector.replicate 64 false)
  key := Vector.replicate 16 false
  mem := []
  wait := false
  waitX := 0
  keyPrev := Vector.replicate 16 false
  fault := 0
  faultPc := 0x0000
  faultOp := 0x0000
  draws := 0

end Sys2Proof.Machine
end

