-- ==== Sys2Proof/Machine/Ops.lean ====
section
/-! DEFINITION. The named operations over memory, registers, PC and framebuffer, and taking a fatal condition. -/

namespace Sys2Proof.Machine

/-- The outcome of a step or a meaning. -/
abbrev Result := Host.Outcome State Fault Refusal

/-! ### Reset contents of memory (10_state.md R32, R33, R37) -/

/-- FONT_BASE (00_scope.md R5, decision D17): 0x000 for this core. Log 3. -/
def fontBase : Nat := 0x000

/-- The 16 glyphs of 5 bytes, top row first (10_state.md R33). UNVERIFIED (general knowledge of the spec, G4), log 3. -/
def fontBytes : List Byte :=
  [0xF0, 0x90, 0x90, 0x90, 0xF0] ++ [0x20, 0x60, 0x20, 0x20, 0x70]
  ++ [0xF0, 0x10, 0xF0, 0x80, 0xF0] ++ [0xF0, 0x10, 0xF0, 0x10, 0xF0]
  ++ [0x90, 0x90, 0xF0, 0x10, 0x10] ++ [0xF0, 0x80, 0xF0, 0x10, 0xF0]
  ++ [0xF0, 0x80, 0xF0, 0x90, 0xF0] ++ [0xF0, 0x10, 0x20, 0x40, 0x40]
  ++ [0xF0, 0x90, 0xF0, 0x90, 0xF0] ++ [0xF0, 0x90, 0xF0, 0x10, 0xF0]
  ++ [0xF0, 0x90, 0xF0, 0x90, 0x90] ++ [0xE0, 0x90, 0xE0, 0x90, 0xE0]
  ++ [0xF0, 0x80, 0x80, 0x80, 0xF0] ++ [0xE0, 0x90, 0x90, 0x90, 0xE0]
  ++ [0xF0, 0x80, 0xF0, 0x80, 0xF0] ++ [0xF0, 0x80, 0xF0, 0x80, 0x80]

/-- What an unlisted address reads as: its reset contents, the font or 0x00 (10_state.md R37). -/
def resetByte (a : Nat) : Byte := if fontBase ≤ a then fontBytes.getD (a - fontBase) 0x00 else 0x00

/-! ### Memory (20_memory.md R60 to R68) -/

/-- The byte at an address. -/
def Memory.read : Memory → Nat → Byte
  | [], a => resetByte a
  | (k, b) :: m, a => if k = a then b else Memory.read m a

/-- A byte put at the head of a canonical tail, or left out if the address would read so anyway. -/
def Memory.put (a : Nat) (b : Byte) (m : Memory) : Memory := if b = resetByte a then m else (a, b) :: m

/-- The memory with one byte written, in canonical form. -/
def Memory.write : Memory → Nat → Byte → Memory
  | [], a, b => Memory.put a b []
  | (k, c) :: m, a, b =>
    if a < k then Memory.put a b ((k, c) :: m)
    else if a = k then Memory.put a b m
    else (k, c) :: Memory.write m a b

/-- Bytes written at consecutive addresses, the first at `a` (20_memory.md R62). -/
def Memory.writeBytes : Memory → Nat → List Byte → Memory
  | m, _, [] => m
  | m, a, b :: bs => Memory.writeBytes (m.write a b) (a + 1) bs

/-- The canonical form from address `lo` on: addresses rise strictly, exist, and hold no reset content. -/
def Memory.wfFrom : Nat → Memory → Bool
  | _, [] => true
  | lo, (k, b) :: m => decide (lo ≤ k) && decide (k < memSize) && (b != resetByte k) && Memory.wfFrom (k + 1) m

/-- The canonical form of a memory. -/
def Memory.wf (m : Memory) : Bool := Memory.wfFrom 0 m

/-- Whether `count` bytes from address `base` on all exist: the check of 20_memory.md R68, addresses being unbounded
integers (R63). -/
def spanFits (base count : Nat) : Bool := decide (count = 0 ∨ base + count ≤ memSize)

/-- `Fetch(pc)` (20_memory.md R65): `none` is its OutOfBounds. -/
def fetchWord (m : Memory) (pc : Nat) : Option Word :=
  if pc + 1 < memSize then some (wordOfBytes (m.read pc) (m.read (pc + 1))) else none

/-! ### Registers and PC -/

/-- `V[x]` (10_state.md R21). -/
def State.reg (s : State) (x : Reg) : Byte := s.v[x]

/-- `V[x] <- b` (10_state.md R21). -/
def State.setReg (s : State) (x : Reg) (b : Byte) : State := { s with v := s.v.set x b }

/-- `V[x] <- res`, then `V[15] <- flag`: the result first, the flag last (41_arithmetic_logic.md R162). -/
def State.setResultFlag (s : State) (x : Reg) (res flag : Byte) : State := (s.setReg x res).setReg Reg.vf flag

/-- "PC: +2" (00_scope.md R9). -/
def State.advance (s : State) : State := { s with pc := s.pc + 2 }

/-- A skip: PC + 4 if the condition holds, else PC + 2 (40_control_flow.md R137). -/
def State.skipIf (s : State) (c : Bool) : State := { s with pc := if c then s.pc + 4 else s.pc + 2 }

/-- `V[k] <- MemRead(base + k)` for the first `count` registers (42_memory_index.md R185). -/
def loadBlock (m : Memory) (base : Nat) (v : Vector Byte 16) (count : Nat) : Vector Byte 16 :=
  Vector.ofFn fun k => if k.val < count then m.read (base + k.val) else v[k]

/-! ### Taking a fatal condition (60_exceptions.md R250, R255) -/

/-- The four fatal conditions (60_exceptions.md R250). -/
inductive Fatal where
  | unknownInstruction
  | outOfBounds
  | stackOverflow
  | stackUnderflow
  deriving DecidableEq, Repr

/-- The code of a fatal condition (60_exceptions.md R250, 10_state.md R35). -/
def fatalCode : Fatal → BitVec 3
  | .unknownInstruction => 1
  | .outOfBounds => 2
  | .stackOverflow => 3
  | .stackUnderflow => 4

/-- `raise F(pc, op)` (60_exceptions.md R255), applied to the state the step began in: FAULT, FAULT_PC and FAULT_OP are
written and nothing else (R256). There is no vector and no handler, and so no return operation beside this one (R269). -/
def State.raise (s : State) (f : Fatal) (op : Word) : State :=
  { s with fault := fatalCode f, faultPc := s.pc, faultOp := op }

/-- The form of the four instructions that access memory through I: `next` if all `count` bytes from I on exist, else
OutOfBounds with no other effect (20_memory.md R68, 60_exceptions.md R252). -/
def State.ifSpanFits (s : State) (i : Instr) (count : Nat) (next : State) : Result :=
  if spanFits s.i.toNat count then .next next else .next (s.raise .outOfBounds (encode i))

/-! ### Framebuffer (43_display.md R200 to R203) -/

/-- The pixel in column `x mod 64`, row `y mod 32`: coordinates wrap per pixel (43_display.md R202). -/
def pixel (fb : Framebuffer) (x y : Nat) : Bool :=
  (fb[y % 32]'(Nat.mod_lt y (by decide)))[x % 64]'(Nat.mod_lt x (by decide))

/-- The framebuffer with that pixel inverted. -/
def flipPixel (fb : Framebuffer) (x y : Nat) : Framebuffer :=
  fb.set (y % 32) ((fb[y % 32]'(Nat.mod_lt y (by decide))).set (x % 64) (!pixel fb x y)
    (Nat.mod_lt x (by decide))) (Nat.mod_lt y (by decide))

/-- What one DRW builds up: the framebuffer and `collision`, which lives only inside it (43_display.md R204). -/
structure Canvas where
  fb : Framebuffer
  collision : Bool
  deriving DecidableEq, Repr

/-- One pixel of a sprite composed by XOR (43_display.md R203): a 0 bit changes nothing. -/
def plot (c : Canvas) (bit : Bool) (x y : Nat) : Canvas :=
  if bit then ⟨flipPixel c.fb x y, c.collision || pixel c.fb x y⟩ else c

/-- One row of a sprite: column `c` is bit `7 - c` (43_display.md R200). -/
def drawRow (c : Canvas) (b : Byte) (x0 y : Nat) : Canvas :=
  (List.range 8).foldl (fun c col => plot c (b.getLsbD (7 - col)) (x0 + col) y) c

/-- The rows of a sprite, the first at row `y` (43_display.md R203). -/
def drawRows (c : Canvas) (x0 : Nat) : Nat → List Byte → Canvas
  | _, [] => c
  | y, b :: bs => drawRows (drawRow c b x0 y) x0 (y + 1) bs

/-- The `n` bytes of a sprite from address `base` on (43_display.md R200). -/
def spriteBytes (m : Memory) (base n : Nat) : List Byte := (List.range n).map fun r => m.read (base + r)

/-! ### Key wait (45_input.md R234) -/

/-- The keys in rising order, for "the lowest-numbered such key" (45_input.md R234). -/
def keysInOrder : List Reg := [0, 1, 2, 3, 4, 5, 6, 7] ++ [8, 9, 10, 11, 12, 13, 14, 15]

/-- The lowest key that is down now and was up at the last sample, if any (45_input.md R234). -/
def newKey (now prev : Keys) : Option Reg := keysInOrder.find? fun k => now[k] && !prev[k]

/-- `KeyWaitPoll()`, what a step does while WAIT = 1 (45_input.md R234). -/
def State.keyWaitPoll (s : State) : State :=
  match newKey s.key s.keyPrev with
  | some k => { s.setReg s.waitX (BitVec.ofNat 8 k.val) with wait := false, pc := s.pc + 2 }
  | none => { s with keyPrev := s.key }

end Sys2Proof.Machine
end

