-- ==== Sys2Proof/Machine/Flags.lean ====
section
/-! DEFINITION. What VF receives as a flag: 0 or 1, never another value (10_state.md R22). -/

namespace Sys2Proof.Machine

/-- A flag as VF holds it. -/
def flagByte (c : Bool) : Byte := if c then 1 else 0

/-- Carry out of an 8-bit addition (41_arithmetic_logic.md R157). -/
def carryFlag (a b : Byte) : Byte := flagByte (decide (a.toNat + b.toNat > 255))

/-- NOT borrow of the subtraction a - b (41_arithmetic_logic.md R158, R163). -/
def notBorrowFlag (a b : Byte) : Byte := flagByte (decide (a.toNat ≥ b.toNat))

/-- The bit a right shift by one shifts out, bit 0 (41_arithmetic_logic.md R159). -/
def shrFlag (src : Byte) : Byte := flagByte (src.getLsbD 0)

/-- The bit a left shift by one shifts out, bit 7 (41_arithmetic_logic.md R161). -/
def shlFlag (src : Byte) : Byte := flagByte (src.getLsbD 7)

end Sys2Proof.Machine
end

