-- ==== Sys2Proof/Config.lean ====
section
/-! DEFINITION. What the spec leaves open, as constants with no body: nothing can be proved about their values, so a
statement holds whatever they are. -/

namespace Sys2Proof

/-- The byte the input `rnd` supplies to the n-th execution of RND (00_scope.md R6, 41_arithmetic_logic.md R166,
60_exceptions.md R268, decision D24). A FREE VALUE, log 1: DESIGN CHOICE, unsafe only for claims that compare two runs
with the same number of draws. -/
opaque Config.rnd : Nat → Byte

/-- The open parameter SHIFT_USES_VY (41_arithmetic_logic.md R165, decision D12, U1): `true` if SHR and SHL take their
source from Vy, `false` if from Vx. Left open, log 2: safe. -/
opaque Config.shiftUsesVy : Bool

end Sys2Proof
end

