-- ==== Sys2Proof/Machine/Operands.lean ====
section
/-! DEFINITION. The operand forms (30_encoding.md R93, R94; 42_memory_index.md R180). -/

namespace Sys2Proof.Machine

/-- `zext_16(nnn)` (30_encoding.md R94). -/
def zextAddr (nnn : Addr12) : Word := nnn.zeroExtend 16

/-- `zext_16(V[x])` (42_memory_index.md R182). -/
def zextByte (b : Byte) : Word := b.zeroExtend 16

/-- `b[3:0]`, which selects a key (45_input.md R230) or a font digit (42_memory_index.md R186). -/
def lowNibble (b : Byte) : Reg := (b.extractLsb' 0 4).toFin

/-- The source of SHR and SHL for a value of SHIFT_USES_VY (41_arithmetic_logic.md R165). -/
def shiftOperand (usesVy : Bool) (s : State) (x y : Reg) : Byte := if usesVy then s.reg y else s.reg x

/-- The source of SHR and SHL on this core: SHIFT_USES_VY is left open (decision D12, log 2). -/
def shiftSource (s : State) (x y : Reg) : Byte := shiftOperand Config.shiftUsesVy s x y

/-- The address of the font sprite of a digit: FONT_BASE + 5 d (42_memory_index.md R186). -/
def fontAddress (d : Reg) : Word := BitVec.ofNat 16 (fontBase + 5 * d.val)

/-- Hundreds, tens and ones of a byte, most significant first (42_memory_index.md R183). -/
def bcdDigits (b : Byte) : List Byte :=
  [BitVec.ofNat 8 (b.toNat / 100), BitVec.ofNat 8 (b.toNat / 10 % 10), BitVec.ofNat 8 (b.toNat % 10)]

/-- The registers V0 to Vx (42_memory_index.md R184). -/
def blockRegs (s : State) (x : Reg) : List Byte := s.v.toList.take (x.val + 1)

/-- Whether the key selected by the low nibble of Vx is pressed (45_input.md R230). -/
def keyPressed (s : State) (x : Reg) : Bool := s.key[lowNibble (s.reg x)]

end Sys2Proof.Machine
end

