-- ==== Sys2Proof/Machine/Arithmetic.lean ====
section
/-! DEFINITION. Arithmetic and logic (41_arithmetic_logic.md). Sums and differences of bytes wrap modulo 256 (R150). -/

namespace Sys2Proof.Machine

/-- `LD Vx, byte` (R151). -/
def execLdByte (x : Reg) (kk : Byte) (s : State) : Result := .next (s.setReg x kk).advance

/-- `ADD Vx, byte` (R152): VF is not written as a flag. -/
def execAddByte (x : Reg) (kk : Byte) (s : State) : Result := .next (s.setReg x (s.reg x + kk)).advance

/-- `LD Vx, Vy` (R153). -/
def execLdReg (x y : Reg) (s : State) : Result := .next (s.setReg x (s.reg y)).advance

/-- `OR Vx, Vy` (R154): VF is not written as a flag. -/
def execOrReg (x y : Reg) (s : State) : Result := .next (s.setReg x (s.reg x ||| s.reg y)).advance

/-- `AND Vx, Vy` (R155): VF is not written as a flag. -/
def execAndReg (x y : Reg) (s : State) : Result := .next (s.setReg x (s.reg x &&& s.reg y)).advance

/-- `XOR Vx, Vy` (R156): VF is not written as a flag. -/
def execXorReg (x y : Reg) (s : State) : Result := .next (s.setReg x (s.reg x ^^^ s.reg y)).advance

/-- `ADD Vx, Vy` (R157). -/
def execAddReg (x y : Reg) (s : State) : Result :=
  .next (s.setResultFlag x (s.reg x + s.reg y) (carryFlag (s.reg x) (s.reg y))).advance

/-- `SUB Vx, Vy` (R158): V[x] - V[y]. -/
def execSubReg (x y : Reg) (s : State) : Result :=
  .next (s.setResultFlag x (s.reg x - s.reg y) (notBorrowFlag (s.reg x) (s.reg y))).advance

/-- `SHR Vx {, Vy}` (R159). -/
def execShr (x y : Reg) (s : State) : Result :=
  .next (s.setResultFlag x (shiftSource s x y >>> 1) (shrFlag (shiftSource s x y))).advance

/-- `SUBN Vx, Vy` (R160): V[y] - V[x], into V[x]. -/
def execSubn (x y : Reg) (s : State) : Result :=
  .next (s.setResultFlag x (s.reg y - s.reg x) (notBorrowFlag (s.reg y) (s.reg x))).advance

/-- `SHL Vx {, Vy}` (R161). -/
def execShl (x y : Reg) (s : State) : Result :=
  .next (s.setResultFlag x (shiftSource s x y <<< 1) (shlFlag (shiftSource s x y))).advance

/-- `RND Vx, byte` (R166): a fresh random byte, a free value (log 1), masked by the immediate. -/
def execRnd (x : Reg) (kk : Byte) (s : State) : Result :=
  .next { (s.setReg x (Config.rnd s.draws &&& kk)).advance with draws := s.draws + 1 }

end Sys2Proof.Machine
end

