-- ==== Sys2Proof/Machine/ControlFlow.lean ====
section
/-! DEFINITION. Control flow (40_control_flow.md). -/

namespace Sys2Proof.Machine

/-- `JP addr` (R130). -/
def execJp (nnn : Addr12) (s : State) : Result := .next { s with pc := zextAddr nnn }

/-- `CALL addr` (R131): StackOverflow iff SP = 16; STACK has no entry for SP of 17 and above (log 4). -/
def execCall (nnn : Addr12) (s : State) : Result :=
  if h : s.sp.toNat < 16 then
    .next { s with stack := s.stack.set s.sp.toNat (s.pc + 2), sp := s.sp + 1, pc := zextAddr nnn }
  else if s.sp = 16 then .next (s.raise .stackOverflow (encode (.call nnn)))
  else .fault .stackPointerRange

/-- `RET` (R132): StackUnderflow iff SP = 0; STACK has no entry for SP of 17 and above (log 4). -/
def execRet (s : State) : Result :=
  if s.sp = 0 then .next (s.raise .stackUnderflow (encode .ret))
  else if h : s.sp.toNat - 1 < 16 then .next { s with sp := s.sp - 1, pc := s.stack[s.sp.toNat - 1] }
  else .fault .stackPointerRange

/-- `SE Vx, byte` (R133). -/
def execSeByte (x : Reg) (kk : Byte) (s : State) : Result := .next (s.skipIf (s.reg x == kk))

/-- `SNE Vx, byte` (R134). -/
def execSneByte (x : Reg) (kk : Byte) (s : State) : Result := .next (s.skipIf (s.reg x != kk))

/-- `SE Vx, Vy` (R135). -/
def execSeReg (x y : Reg) (s : State) : Result := .next (s.skipIf (s.reg x == s.reg y))

/-- `SNE Vx, Vy` (R136). -/
def execSneReg (x y : Reg) (s : State) : Result := .next (s.skipIf (s.reg x != s.reg y))

/-- `JP V0, addr` (R139): the offset register is always V0, and the sum, at most 0x10FE, is exact. -/
def execJpV0 (nnn : Addr12) (s : State) : Result := .next { s with pc := zextAddr nnn + zextByte (s.reg 0) }

end Sys2Proof.Machine
end

