-- ==== Sys2Proof/Machine/Display.lean ====
section
/-! DEFINITION. Display (43_display.md). -/

namespace Sys2Proof.Machine

/-- `CLS` (R201): every pixel off. -/
def execCls (s : State) : Result :=
  .next { s with fb := Vector.replicate 32 (Vector.replicate 64 false) }.advance

/-- What DRW composes: `n` rows from I, the top-left pixel at column V[x], row V[y], both read before VF is written
(R203). -/
def drawSprite (x y : Reg) (n : Nibble) (s : State) : Canvas :=
  drawRows ⟨s.fb, false⟩ (s.reg x).toNat (s.reg y).toNat (spriteBytes s.mem s.i.toNat n.toNat)

/-- `DRW Vx, Vy, nibble` (R203). With n = 0 it reads nothing, cannot fault and writes VF = 0. -/
def execDrw (x y : Reg) (n : Nibble) (s : State) : Result :=
  s.ifSpanFits (.drw x y n) n.toNat
    ({ s with fb := (drawSprite x y n s).fb }.setReg Reg.vf (flagByte (drawSprite x y n s).collision)).advance

end Sys2Proof.Machine
end

