-- ==== Sys2Proof/Machine/Input.lean ====
section
/-! DEFINITION. Input (45_input.md). The poll of a pending key wait is `State.keyWaitPoll` in Ops. -/

namespace Sys2Proof.Machine

/-- `SKP Vx` (R231). -/
def execSkp (x : Reg) (s : State) : Result := .next (s.skipIf (keyPressed s x))

/-- `SKNP Vx` (R232). -/
def execSknp (x : Reg) (s : State) : Result := .next (s.skipIf (!keyPressed s x))

/-- `LD Vx, K` (R233): only arms the wait; PC stays at the instruction. -/
def execLdVxK (x : Reg) (s : State) : Result := .next { s with wait := true, waitX := x, keyPrev := s.key }

end Sys2Proof.Machine
end

