-- ==== Sys2Proof/Machine/MemoryIndex.lean ====
section
/-! DEFINITION. Memory and index register (42_memory_index.md). -/

namespace Sys2Proof.Machine

/-- `LD I, addr` (R181). -/
def execLdI (nnn : Addr12) (s : State) : Result := .next { s with i := zextAddr nnn }.advance

/-- `ADD I, Vx` (R182): modulo 65536, VF not written. -/
def execAddI (x : Reg) (s : State) : Result := .next { s with i := s.i + zextByte (s.reg x) }.advance

/-- `LD F, Vx` (R186). -/
def execLdF (x : Reg) (s : State) : Result := .next { s with i := fontAddress (lowNibble (s.reg x)) }.advance

/-- `LD B, Vx` (R183). -/
def execLdB (x : Reg) (s : State) : Result :=
  s.ifSpanFits (.ldB x) 3 { s with mem := s.mem.writeBytes s.i.toNat (bcdDigits (s.reg x)) }.advance

/-- `LD [I], Vx` (R184): V0 to Vx inclusive, I unchanged. -/
def execStoreRegs (x : Reg) (s : State) : Result :=
  s.ifSpanFits (.storeRegs x) (x.val + 1) { s with mem := s.mem.writeBytes s.i.toNat (blockRegs s x) }.advance

/-- `LD Vx, [I]` (R185): V0 to Vx inclusive, I unchanged. -/
def execLoadRegs (x : Reg) (s : State) : Result :=
  s.ifSpanFits (.loadRegs x) (x.val + 1) { s with v := loadBlock s.mem s.i.toNat s.v (x.val + 1) }.advance

end Sys2Proof.Machine
end

