-- ==== Sys2Proof/Machine/Timers.lean ====
section
/-! DEFINITION. Timers (44_timers.md). -/

namespace Sys2Proof.Machine

/-- `LD DT, Vx` (R220). -/
def execLdDtVx (x : Reg) (s : State) : Result := .next { s with dt := s.reg x }.advance

/-- `LD ST, Vx` (R221). -/
def execLdStVx (x : Reg) (s : State) : Result := .next { s with st := s.reg x }.advance

/-- `LD Vx, DT` (R222). -/
def execLdVxDt (x : Reg) (s : State) : Result := .next (s.setReg x s.dt).advance

end Sys2Proof.Machine
end

