-- ==== Sys2Proof/Machine/Step.lean ====
section
/-! DEFINITION. The step cycle (30_encoding.md R90). -/

namespace Sys2Proof.Machine

/-- Steps 3 to 6 of R90: fetch at PC, decode, execute. -/
def fetchDecodeExecute (s : State) : Host.Outcome State Fault Refusal :=
  match fetchWord s.mem s.pc.toNat with
  | none => .next (s.raise .outOfBounds 0x0000)
  | some w =>
    match decodeWord w with
    | .error _ => .next (s.raise .unknownInstruction w)
    | .ok i => exec i s

/-- `step()` (30_encoding.md R90): nothing when halted, a poll while waiting for a key, else one instruction. -/
def step (s : State) : Host.Outcome State Fault Refusal :=
  if s.fault ≠ 0 then .next s
  else if s.wait then .next s.keyWaitPoll
  else fetchDecodeExecute s

/-- `s` with an instruction word (numbered as the opcode table numbers it) stored where `step` fetches next. `step`
fetches only when the core is neither halted nor waiting and PC is at most 0xFFE, so those are set too where `s` is not
so already; the word stands for what `load` would have placed (log 9). -/
def State.withFetchWord (s : State) (nbits w : Nat) : State :=
  let pc : Word := if s.pc.toNat + 1 < memSize then s.pc else 0x0200
  { s with
    pc := pc
    fault := 0
    wait := false
    mem := s.mem.writeBytes pc.toNat (bytesOfWord (BitVec.ofNat 16 (w % 2 ^ nbits))) }

end Sys2Proof.Machine
end

