-- ==== Sys2Proof/Machine/Requests.lean ====
section
/-! DEFINITION. What the host can do to the core and see of it (60_exceptions.md R262 to R267): atomic requests, in any
order at any boundary (70_reset_and_hazards.md R311), and the outputs. -/

namespace Sys2Proof.Machine

/-! ### Operations on the core -/

/-- `reset` (70_reset_and_hazards.md R300). `draws` is no state of the spec's and keeps its count, so that the draws after
a reset are fresh ones, unrelated to those before it (41_arithmetic_logic.md R166, log 1). -/
def State.applyReset (s : State) : State := { State.reset with draws := s.draws }

/-- `load(bytes)` of an image that fits (60_exceptions.md R263): the bytes from 0x200 on, and nothing else. -/
def State.loadImage (s : State) (image : List Byte) : State :=
  { s with mem := s.mem.writeBytes progBase image }

/-- One timer's tick: down by one, never below 0 (60_exceptions.md R260). -/
def tickTimer (t : Byte) : Byte := if t = 0 then 0 else t - 1

/-- `tick_timers()` (60_exceptions.md R260), the same whether the core runs, waits or is halted. -/
def State.tickTimers (s : State) : State := { s with dt := tickTimer s.dt, st := tickTimer s.st }

/-- `set_key(index, pressed)` (60_exceptions.md R264): refused without a change if the index is above 15. -/
def State.setKey (s : State) (index : Nat) (pressed : Bool) : State :=
  { s with key := s.key.setIfInBounds index pressed }

/-! ### Outputs -/

/-- The display view: 2048 pixels, row-major (60_exceptions.md R265). -/
def State.displayView (s : State) : List Bool := s.fb.toList.flatMap Vector.toList

/-- `sound_active` (60_exceptions.md R266). -/
def State.soundActive (s : State) : Bool := decide (s.st.toNat > 0)

/-- FAULT, FAULT_PC, FAULT_OP (60_exceptions.md R267). -/
def State.faultStatus (s : State) : BitVec 3 × Word × Word := (s.fault, s.faultPc, s.faultOp)

/-! ### The host's protocol -/

/-- One operation of the host (60_exceptions.md R262). -/
inductive Request where
  | reset
  | load (image : List Byte)
  | step
  | tickTimers
  | setKey (index : Nat) (pressed : Bool)
  deriving DecidableEq, Repr

/-- What the host is told. -/
inductive Reply where
  /-- The operation was performed. -/
  | done
  /-- An oversized image: `OutOfBounds` reported to the host, nothing changed (60_exceptions.md R263). -/
  | outOfBounds
  /-- A key index above 15: refused, nothing changed (60_exceptions.md R264). -/
  | keyIndexRefused
  deriving DecidableEq, Repr

/-- The core and where the host stands in the boot order (70_reset_and_hazards.md R305). -/
structure Session where
  core : State
  /-- A `load` may still come: after a reset, before any load and any step (R306). The model's own, log 7. -/
  loadOpen : Bool
  deriving DecidableEq, Repr

/-- After power-on and `reset`. -/
def Session.start : Session := ⟨State.reset, true⟩

/-- One request: an oversized image or a key index above 15 is refused to the host with no change; a `load` out of its
place has no meaning (decision D26) and is refused by the model. -/
def Session.apply (u : Session) : Request → Host.Outcome (Session × Reply) Fault Refusal
  | .reset => .next (⟨u.core.applyReset, true⟩, .done)
  | .load image =>
    if u.loadOpen then
      if imageFits image then .next (⟨u.core.loadImage image, false⟩, .done) else .next (u, .outOfBounds)
    else .refused .loadOutOfOrder
  | .step =>
    match step u.core with
    | .next s => .next (⟨s, false⟩, .done)
    | .fault r => .fault r
    | .refused r => .refused r
  | .tickTimers => .next (⟨u.core.tickTimers, u.loadOpen⟩, .done)
  | .setKey index pressed =>
    if keyIndexOk index then .next (⟨u.core.setKey index pressed, u.loadOpen⟩, .done) else .next (u, .keyIndexRefused)

/-- A run: any requests in any order (70_reset_and_hazards.md R311). -/
def Session.run (u : Session) : List Request → Host.Outcome Session Fault Refusal
  | [] => .next u
  | r :: rs =>
    match u.apply r with
    | .next (u', _) => Session.run u' rs
    | .fault f => .fault f
    | .refused f => .refused f

end Sys2Proof.Machine
end

