-- ==== Sys2Proof/Safety.lean ====
section
/-! DEFINITION. The terms claims are stated in: what a state of a run looks like, a run without a recorded fault, and
what stays unchanged. -/

namespace Sys2Proof.Machine

/-- The halted state (60_exceptions.md R257). -/
abbrev State.Halted (s : State) : Prop := s.fault ≠ 0

/-- A state in which `step` fetches: neither halted nor waiting for a key (30_encoding.md R90). -/
abbrev State.Running (s : State) : Prop := s.fault = 0 ∧ s.wait = false

/-- What every state of a run satisfies. Memory is canonical; SP is 0 to 16 (10_state.md R25); a return address is at
most 0x1000 (40_control_flow.md R131); PC is at most 0x10FE (10_state.md R24); a pending key wait has PC at a fetchable
address (R24) and no fault (45_input.md R234); FAULT is 0 to 4, the record is 0 while there is no fault, and FAULT_PC is
PC once there is one (10_state.md R35, 60_exceptions.md R250, R255). -/
structure State.Inv (s : State) : Prop where
  memCanonical : s.mem.wf = true
  spRange : s.sp.toNat ≤ 16
  stackRange : ∀ k : Fin 16, (s.stack[k]).toNat ≤ 0x1000
  pcRange : s.pc.toNat ≤ 0x10FE
  waitPc : s.wait = true → s.pc.toNat ≤ 0xFFE ∧ s.fault = 0
  faultRange : s.fault.toNat ≤ 4
  noRecord : s.fault = 0 → s.faultPc = 0 ∧ s.faultOp = 0
  recordPc : s.fault ≠ 0 → s.faultPc = s.pc

/-- What holds between any two requests of the host: the core's invariant, and while a `load` may still come no step has
been taken, so the core is neither halted nor waiting (70_reset_and_hazards.md R306). -/
structure Session.Inv (u : Session) : Prop where
  core : u.core.Inv
  loadOpen : u.loadOpen = true → u.core.fault = 0 ∧ u.core.wait = false

/-- The parts of the state a frame can name (10_state.md R20; FAULT stands for the three fault registers, WAIT for the
three of the key wait). -/
inductive Part where
  | v | i | pc | sp | stack | dt | st | fb | key | mem | wait | fault | draws
  deriving DecidableEq, Repr

/-- Whether one part of the state is unchanged. Memory is unchanged if every byte reads as before (and, its form being
canonical, it is then the same list: the clause says both). -/
def SamePart (s t : State) : Part → Prop
  | .v => ∀ r : Reg, t.reg r = s.reg r
  | .i => t.i = s.i
  | .pc => t.pc = s.pc
  | .sp => t.sp = s.sp
  | .stack => t.stack = s.stack
  | .dt => t.dt = s.dt
  | .st => t.st = s.st
  | .fb => t.fb = s.fb
  | .key => t.key = s.key
  | .mem => t.mem = s.mem ∧ ∀ a : Nat, t.mem.read a = s.mem.read a
  | .wait => t.wait = s.wait ∧ t.waitX = s.waitX ∧ t.keyPrev = s.keyPrev
  | .fault => t.fault = s.fault ∧ t.faultPc = s.faultPc ∧ t.faultOp = s.faultOp
  | .draws => t.draws = s.draws

/-- The frame of a change: every part of the state but those named is unchanged. -/
def UnchangedBut (parts : List Part) (s t : State) : Prop := ∀ p : Part, p ∉ parts → SamePart s t p

/-- Every byte outside the `count` bytes from address `base` on reads as before. -/
def MemUnchangedOutside (base count : Nat) (s t : State) : Prop :=
  ∀ a : Nat, a < base ∨ base + count ≤ a → t.mem.read a = s.mem.read a

/-- The two states differ in no register but those named. -/
def RegsUnchangedBut (regs : List Reg) (s t : State) : Prop := ∀ r : Reg, r ∉ regs → t.reg r = s.reg r

/-- Only PC changed. -/
def OnlyPc (s t : State) (pc : Word) : Prop := t.pc = pc ∧ UnchangedBut [.pc] s t

/-- One register received a byte, PC advanced by 2, and nothing else changed. -/
def OnlyReg (s t : State) (x : Reg) (b : Byte) : Prop :=
  t.reg x = b ∧ t.pc = s.pc + 2 ∧ RegsUnchangedBut [x] s t ∧ UnchangedBut [.v, .pc] s t

/-- V[x] received a result, then VF a flag, so that the flag stands if x = 15 (41_arithmetic_logic.md R162); PC advanced
by 2, and nothing else changed. -/
def RegThenFlag (s t : State) (x : Reg) (result flag : Nat) : Prop :=
  (x ≠ Reg.vf → (t.reg x).toNat = result) ∧ (t.reg Reg.vf).toNat = flag ∧ t.pc = s.pc + 2 ∧
    RegsUnchangedBut [x, Reg.vf] s t ∧ UnchangedBut [.v, .pc] s t

/-- Only I changed, and PC advanced by 2. -/
def OnlyI (s t : State) (i : Nat) : Prop := t.i.toNat = i ∧ t.pc = s.pc + 2 ∧ UnchangedBut [.i, .pc] s t

/-- A fatal condition was recorded at this state's PC, with this code and word, and nothing else changed
(60_exceptions.md R255, R256). -/
def FaultRecorded (s t : State) (code op : Nat) : Prop :=
  t.fault.toNat = code ∧ t.faultPc = s.pc ∧ t.faultOp.toNat = op ∧ UnchangedBut [.fault] s t

/-- Whether a sprite of `n` rows from memory at I, its top-left pixel at column V[x], row V[y], has a 1 bit for the
pixel in column `px`, row `py` (43_display.md R200, R202, R203). -/
def SpriteCovers (s : State) (x y : Reg) (n : Nibble) (px py : Nat) : Prop :=
  ∃ r c : Nat, r < n.toNat ∧ c < 8 ∧ ((s.reg x).toNat + c) % 64 = px ∧ ((s.reg y).toNat + r) % 32 = py ∧
    (s.mem.read (s.i.toNat + r)).getLsbD (7 - c) = true

end Sys2Proof.Machine
end

