-- ==== Sys2Proof/Certificates/Slice0/Obligations.lean ====
section
/-! DEFINITION. The statements for the provers, in the order of spec/: each docstring says which rule it formalises and,
where a clause rests on the model's or the spec's own choice, which. The words that decode are those of the rules' own
Encoding lines, which the spec states from general knowledge (G1, log 8). Fault codes are the spec's decision D5. -/

open Sys2Proof Sys2Proof.Machine

/-! ### The step cycle, decoding, encoding -/

/-- 30_encoding.md R90, steps 3 to 6: the core running, the two bytes at PC read high byte first decode to `i`, and the
step is exactly `exec i` at that state. -/
def Obligations.StepRunsDecodedInstruction : Prop :=
  ∀ (s : State) (i : Instr), s.fault = 0 → s.wait = false → s.pc.toNat ≤ 0xFFE →
    decodeWord (wordOfBytes (s.mem.read s.pc.toNat) (s.mem.read (s.pc.toNat + 1))) = .ok i →
    step s = exec i s

/-- 20_memory.md R65: the fetch fails with OutOfBounds(pc, 0x0000) iff PC is 0xFFF or above; otherwise the opcode is
256 * MEM[pc] + MEM[pc + 1], and it alone decides what the step does (decisions D5, D35). -/
def Obligations.FetchIsBigEndianAndBounded : Prop :=
  ∀ (s : State), s.fault = 0 → s.wait = false →
    (s.pc.toNat ≥ 0xFFF → ∃ t, step s = .next t ∧ FaultRecorded s t 2 0x0000) ∧
    (s.pc.toNat < 0xFFF → ∀ w : Word,
      w.toNat = 256 * (s.mem.read s.pc.toNat).toNat + (s.mem.read (s.pc.toNat + 1)).toNat →
      (∀ i, decodeWord w = .ok i → step s = exec i s) ∧
      (∀ e, decodeWord w = .error e → ∃ t, step s = .next t ∧ FaultRecorded s t 1 w.toNat))

/-- Words written out from 30_encoding.md R92 and R96 (log 8), at least one of each format OP, NNN, XKK, XY, XYN and X,
decode to what they stand for; 0x5121 is refused (R104, decision D8: the low nibble of family 5 is part of the pattern). -/
def Obligations.SampleWordsDecode : Prop :=
  decodeWord 0x00E0 = .ok .cls ∧ decodeWord 0x2ABC = .ok (.call 0xABC) ∧ decodeWord 0x332A = .ok (.seByte 3 0x2A) ∧
  decodeWord 0x8AB7 = .ok (.subn 0xA 0xB) ∧
  decodeWord 0xD12F = .ok (.drw 1 2 0xF) ∧ decodeWord 0xF365 = .ok (.loadRegs 3) ∧ decodeWord 0xF30A = .ok (.ldVxK 3) ∧
  decodeWord 0xE0A1 = .ok (.sknp 0) ∧ decodeWord 0xFF07 = .ok (.ldVxDt 15) ∧ decodeWord 0x5121 = .error (.family5 0x5121)

/-- Decoding an instruction's word gives it back, every operand at every value, and from memory order it takes two bytes
and no more (30_encoding.md R91, R93). Bit patterns UNVERIFIED (the general knowledge of the spec, G1), log 8. -/
def Obligations.DecodeOfEncode : Prop :=
  ∀ (i : Instr) (rest : List Byte),
    decodeWord (encode i) = .ok i ∧ decodeBytes (bytesOfWord (encode i) ++ rest) = .ok (i, rest)

/-- Every word that decodes is the encoding of what it decodes to: decoding drops no bit (30_encoding.md R93, R94;
log 8). -/
def Obligations.EncodeOfDecode : Prop :=
  ∀ (w : Word) (i : Instr), decodeWord w = .ok i → encode i = w

/-- The decoder, written from R95, accepts exactly the words that match a row of R96, and answers an instruction of the
row the word matches (log 8). -/
def Obligations.DecoderAcceptsExactlyTableRows : Prop :=
  ∀ w : Word, ((∃ i, decodeWord w = .ok i) ↔ legalWord w = true) ∧
    ∀ i, decodeWord w = .ok i → i.row.matchesWord w = true

/-- The decoder refuses exactly the words that 30_encoding.md R104 lists by family (decisions D7, D8, log 8). -/
def Obligations.DecoderRefusesExactlyIllegalWords : Prop :=
  ∀ w : Word, (∃ e, decodeWord w = .error e) ↔ illegalWord w = true

/-- No word matches two rows of 30_encoding.md R96 (R95: pairwise disjoint; log 8). -/
def Obligations.TableRowsPairwiseDisjoint : Prop :=
  rows.Pairwise fun r r' => ∀ w : Word, ¬ (r.matchesWord w = true ∧ r'.matchesWord w = true)

/-- The word `withFetchWord` stores is the one the next step runs, wherever the state stands (the model's own, log 9). -/
def Obligations.WithFetchWordRunsNext : Prop :=
  ∀ (s : State) (w : Nat) (i : Instr), s.mem.wf = true → decodeTableWord 16 w = some i →
    step (s.withFetchWord 16 w) = exec i (s.withFetchWord 16 w)

/-! ### Fatal conditions and the halted state -/

/-- 60_exceptions.md R251: UnknownInstruction is raised iff the fetched word is in the illegal set, and records PC and
the word (code 1, decision D5). -/
def Obligations.UnknownInstructionExactlyOnIllegalWord : Prop :=
  ∀ (s : State) (w : Word), s.fault = 0 → s.wait = false → fetchWord s.mem s.pc.toNat = some w →
    ((∃ t, step s = .next t ∧ t.fault.toNat = 1) ↔ illegalWord w = true) ∧
    (illegalWord w = true → ∃ t, step s = .next t ∧ FaultRecorded s t 1 w.toNat)

/-- 60_exceptions.md R252 (b): during execute OutOfBounds is raised by the four instructions that access memory through
I, under exactly these conditions, and by no other (code 2, decision D5). -/
def Obligations.OutOfBoundsExactlyBeyondMemory : Prop :=
  ∀ (i : Instr) (s t : State), s.fault = 0 → exec i s = .next t →
    (t.fault.toNat = 2 ↔
      (∃ x y n, i = .drw x y n ∧ n.toNat > 0 ∧ s.i.toNat + n.toNat - 1 ≥ 4096) ∨
      (∃ x, i = .ldB x ∧ s.i.toNat + 2 ≥ 4096) ∨
      (∃ x : Reg, (i = .storeRegs x ∨ i = .loadRegs x) ∧ s.i.toNat + x.val ≥ 4096))

/-- 20_memory.md R68 (decision D4): where the last byte of the span does not exist, each of the four records OutOfBounds
with its own word and changes nothing else: no byte, no register, no pixel. -/
def Obligations.MultiByteAccessFaultsWhole : Prop :=
  ∀ (x y : Reg) (n : Nibble) (s : State),
    (n.toNat > 0 → s.i.toNat + n.toNat - 1 ≥ 4096 →
      ∃ t, exec (.drw x y n) s = .next t ∧
        FaultRecorded s t 2 (0xD000 + 0x100 * x.val + 0x10 * y.val + n.toNat)) ∧
    (s.i.toNat + 2 ≥ 4096 → ∃ t, exec (.ldB x) s = .next t ∧ FaultRecorded s t 2 (0xF033 + 0x100 * x.val)) ∧
    (s.i.toNat + x.val ≥ 4096 → ∃ t, exec (.storeRegs x) s = .next t ∧ FaultRecorded s t 2 (0xF055 + 0x100 * x.val)) ∧
    (s.i.toNat + x.val ≥ 4096 → ∃ t, exec (.loadRegs x) s = .next t ∧ FaultRecorded s t 2 (0xF065 + 0x100 * x.val))

/-- 60_exceptions.md R253, R254: StackOverflow is raised by CALL iff SP = 16, StackUnderflow by RET iff SP = 0, and
neither by any other instruction. The codes 3 and 4 are decision D5. -/
def Obligations.StackFaultsExactlyOnFullCallAndEmptyRet : Prop :=
  ∀ (i : Instr) (s : State), s.fault = 0 →
    ((∃ t, exec i s = .next t ∧ t.fault.toNat = 3) ↔ ((∃ nnn, i = .call nnn) ∧ s.sp.toNat = 16)) ∧
    ((∃ t, exec i s = .next t ∧ t.fault.toNat = 4) ↔ (i = .ret ∧ s.sp.toNat = 0))

/-- The one place where the model itself stops: CALL or RET with SP of 17 to 255, which the spec says is never reached
(10_state.md R25). The model's choice, log 4. -/
def Obligations.StopsExactlyBeyondStack : Prop :=
  ∀ (i : Instr) (s : State),
    (exec i s = .fault .stackPointerRange ↔ ((i = .ret ∨ ∃ nnn, i = .call nnn) ∧ s.sp.toNat ≥ 17)) ∧
    ∀ r, exec i s ≠ .refused r

/-- 60_exceptions.md R256 (decision D4): a step that records a fault leaves every other piece of state as it was before
that step, with FAULT_PC = PC and FAULT_OP the word at PC, or 0x0000 when the fetch itself failed (decision D35). -/
def Obligations.FaultingStepIsPrecise : Prop :=
  ∀ (s t : State), s.fault = 0 → s.wait = false → step s = .next t → t.fault ≠ 0 →
    UnchangedBut [.fault] s t ∧ t.faultPc = s.pc ∧
    t.faultOp = (if s.pc.toNat ≥ 0xFFF then 0x0000
      else wordOfBytes (s.mem.read s.pc.toNat) (s.mem.read (s.pc.toNat + 1)))

/-- 60_exceptions.md R257 (decision D6): halted, a step changes nothing, and no run of requests without a reset changes
the fault record, PC, the registers or memory. -/
def Obligations.HaltedUntilReset : Prop :=
  ∀ (u : Session), u.Inv → u.core.fault ≠ 0 →
    step u.core = .next u.core ∧
    ∀ (requests : List Request) (u' : Session), Request.reset ∉ requests → u.run requests = .next u' →
      UnchangedBut [.dt, .st, .key] u.core u'.core

/-! ### Reset and the invariant -/

/-- 70_reset_and_hazards.md R300 and 10_state.md R37: the values, that a first step without a `load` records
UnknownInstruction, and that `reset` gives these values in any state (only the count of free values taken goes on, log 1).
The spec's own decisions: D5, D17, D18, D19, D20, D22, D34. The font's bytes are its general knowledge (G4), log 3. -/
def Obligations.ResetValues : Prop :=
  (∀ r : Reg, State.reset.reg r = 0) ∧ State.reset.i = 0 ∧ State.reset.pc = 0x200 ∧ State.reset.sp = 0 ∧
  (∀ k : Fin 16, State.reset.stack[k] = 0) ∧ State.reset.dt = 0 ∧ State.reset.st = 0 ∧
  (∀ x y, pixel State.reset.fb x y = false) ∧ (∀ k : Reg, State.reset.key[k] = false) ∧
  State.reset.wait = false ∧ State.reset.waitX = 0 ∧ (∀ k : Reg, State.reset.keyPrev[k] = false) ∧
  State.reset.faultStatus = (0, 0, 0) ∧ State.reset.soundActive = false ∧
  (List.range 16).map (fun d => (List.range 5).map fun r => State.reset.mem.read (5 * d + r)) =
    [ [0xF0, 0x90, 0x90, 0x90, 0xF0], [0x20, 0x60, 0x20, 0x20, 0x70], [0xF0, 0x10, 0xF0, 0x80, 0xF0],
      [0xF0, 0x10, 0xF0, 0x10, 0xF0], [0x90, 0x90, 0xF0, 0x10, 0x10], [0xF0, 0x80, 0xF0, 0x10, 0xF0],
      [0xF0, 0x80, 0xF0, 0x90, 0xF0], [0xF0, 0x10, 0x20, 0x40, 0x40], [0xF0, 0x90, 0xF0, 0x90, 0xF0],
      [0xF0, 0x90, 0xF0, 0x10, 0xF0], [0xF0, 0x90, 0xF0, 0x90, 0x90], [0xE0, 0x90, 0xE0, 0x90, 0xE0],
      [0xF0, 0x80, 0x80, 0x80, 0xF0], [0xE0, 0x90, 0x90, 0x90, 0xE0], [0xF0, 0x80, 0xF0, 0x80, 0xF0],
      [0xF0, 0x80, 0xF0, 0x80, 0x80] ] ∧
  (∀ a, a ≥ 0x050 → State.reset.mem.read a = 0) ∧
  (∃ t, step State.reset = .next t ∧ FaultRecorded State.reset t 1 0x0000) ∧
  ∀ u : Session, ∃ u', u.apply .reset = .next (u', .done) ∧ u'.loadOpen = true ∧
    UnchangedBut [.draws] State.reset u'.core ∧ u'.core.draws = u.core.draws

/-- The state after reset, and the session the host starts with, satisfy their invariants. -/
def Obligations.ResetSatisfiesInv : Prop := State.reset.Inv ∧ Session.start.Inv

/-- Every step keeps the invariant: canonical memory, SP of 0 to 16, PC of at most 0x10FE, a legal fault record, and the
rest of `State.Inv`. -/
def Obligations.StepKeepsInv : Prop :=
  ∀ (s t : State), s.Inv → step s = .next t → t.Inv

/-- From every state with the invariant a step answers a next state: the model never stops by itself, every fatal
condition of the spec being a state (decisions D5, D6, log 6). -/
def Obligations.StepAlwaysAnswers : Prop :=
  ∀ (s : State), s.Inv → ∃ t, step s = .next t

/-- Whatever requests the host issues, in whatever order (70_reset_and_hazards.md R311), the session's invariant holds at
every boundary, and the only thing the model refuses is a `load` out of its place (decision D26). -/
def Obligations.EveryInterleavingKeepsInv : Prop :=
  ∀ (u : Session) (requests : List Request), u.Inv →
    (∃ u', u.run requests = .next u' ∧ u'.Inv) ∨ u.run requests = .refused .loadOutOfOrder

/-! ### Control flow -/

/-- 40_control_flow.md R130. -/
def Obligations.JumpSetsPc : Prop :=
  ∀ (nnn : Addr12) (s : State),
    decodeWord (BitVec.ofNat 16 (0x1000 + nnn.toNat)) = .ok (.jp nnn) ∧
    ∃ t, exec (.jp nnn) s = .next t ∧ t.pc.toNat = nnn.toNat ∧ UnchangedBut [.pc] s t

/-- 40_control_flow.md R131: with SP below 16 the return address is pushed; with SP = 16 StackOverflow is recorded and
nothing else changes (decisions D4, D5, D21). -/
def Obligations.CallPushesReturnAddress : Prop :=
  ∀ (nnn : Addr12) (s : State),
    decodeWord (BitVec.ofNat 16 (0x2000 + nnn.toNat)) = .ok (.call nnn) ∧
    (s.sp.toNat < 16 → ∃ t, exec (.call nnn) s = .next t ∧
      t.pc.toNat = nnn.toNat ∧ t.sp.toNat = s.sp.toNat + 1 ∧
      (∀ k : Fin 16, t.stack[k] = if k.val = s.sp.toNat then s.pc + 2 else s.stack[k]) ∧
      UnchangedBut [.pc, .sp, .stack] s t) ∧
    (s.sp.toNat = 16 → ∃ t, exec (.call nnn) s = .next t ∧ FaultRecorded s t 3 (0x2000 + nnn.toNat))

/-- 40_control_flow.md R132: with SP of 1 to 16 the top return address goes to PC, nothing added; with SP = 0
StackUnderflow is recorded and nothing else changes (decisions D4, D5, D21). -/
def Obligations.ReturnPopsPc : Prop :=
  ∀ (s : State),
    decodeWord 0x00EE = .ok .ret ∧
    (∀ k : Fin 16, s.sp.toNat = k.val + 1 → ∃ t, exec .ret s = .next t ∧
      t.pc = s.stack[k] ∧ t.sp.toNat = s.sp.toNat - 1 ∧ UnchangedBut [.pc, .sp] s t) ∧
    (s.sp.toNat = 0 → ∃ t, exec .ret s = .next t ∧ FaultRecorded s t 4 0x00EE)

/-- The round trip of 40_control_flow.md R132: a CALL, then a RET, gives PC + 2 and SP back; the only residue is the
dead entry of STACK. -/
def Obligations.CallThenReturnResumes : Prop :=
  ∀ (nnn : Addr12) (s : State), s.sp.toNat < 16 →
    ∃ t u, exec (.call nnn) s = .next t ∧ exec .ret t = .next u ∧
      u.pc = s.pc + 2 ∧ (∀ k : Fin 16, k.val ≠ s.sp.toNat → u.stack[k] = s.stack[k]) ∧
      UnchangedBut [.pc, .stack] s u

/-- 40_control_flow.md R133, R134. -/
def Obligations.SkipOnImmediate : Prop :=
  ∀ (x : Reg) (kk : Byte) (s : State),
    decodeWord (BitVec.ofNat 16 (0x3000 + 0x100 * x.val + kk.toNat)) = .ok (.seByte x kk) ∧
    decodeWord (BitVec.ofNat 16 (0x4000 + 0x100 * x.val + kk.toNat)) = .ok (.sneByte x kk) ∧
    (∃ t, exec (.seByte x kk) s = .next t ∧ OnlyPc s t (if s.reg x = kk then s.pc + 4 else s.pc + 2)) ∧
    (∃ t, exec (.sneByte x kk) s = .next t ∧ OnlyPc s t (if s.reg x = kk then s.pc + 2 else s.pc + 4))

/-- 40_control_flow.md R135, R136. -/
def Obligations.SkipOnRegisters : Prop :=
  ∀ (x y : Reg) (s : State),
    decodeWord (BitVec.ofNat 16 (0x5000 + 0x100 * x.val + 0x10 * y.val)) = .ok (.seReg x y) ∧
    decodeWord (BitVec.ofNat 16 (0x9000 + 0x100 * x.val + 0x10 * y.val)) = .ok (.sneReg x y) ∧
    (∃ t, exec (.seReg x y) s = .next t ∧ OnlyPc s t (if s.reg x = s.reg y then s.pc + 4 else s.pc + 2)) ∧
    (∃ t, exec (.sneReg x y) s = .next t ∧ OnlyPc s t (if s.reg x = s.reg y then s.pc + 2 else s.pc + 4))

/-- 40_control_flow.md R139: the sum is exact, at most 0x10FE, and the offset register is V0 (the spec's decisions D3,
D32). -/
def Obligations.JumpPlusV0 : Prop :=
  ∀ (nnn : Addr12) (s : State),
    ∃ t, exec (.jpV0 nnn) s = .next t ∧ t.pc.toNat = nnn.toNat + (s.reg 0).toNat ∧ UnchangedBut [.pc] s t

/-! ### Arithmetic and logic -/

/-- 41_arithmetic_logic.md R151, R153. -/
def Obligations.LoadRegister : Prop :=
  ∀ (x y : Reg) (kk : Byte) (s : State),
    decodeWord (BitVec.ofNat 16 (0x6000 + 0x100 * x.val + kk.toNat)) = .ok (.ldByte x kk) ∧
    decodeWord (BitVec.ofNat 16 (0x8000 + 0x100 * x.val + 0x10 * y.val)) = .ok (.ldReg x y) ∧
    (∃ t, exec (.ldByte x kk) s = .next t ∧ OnlyReg s t x kk) ∧
    (∃ t, exec (.ldReg x y) s = .next t ∧ OnlyReg s t x (s.reg y))

/-- 41_arithmetic_logic.md R152: wraps, and VF is left alone unless it is the destination (decision D10). -/
def Obligations.AddImmediateWraps : Prop :=
  ∀ (x : Reg) (kk : Byte) (s : State),
    ∃ t b, exec (.addByte x kk) s = .next t ∧ OnlyReg s t x b ∧ b.toNat = ((s.reg x).toNat + kk.toNat) % 256

/-- 41_arithmetic_logic.md R154 to R156: bit by bit, and VF is left alone unless it is the destination (decision
D11). -/
def Obligations.BitwiseLeavesVf : Prop :=
  ∀ (x y : Reg) (s : State),
    (∃ t b, exec (.orReg x y) s = .next t ∧ OnlyReg s t x b ∧
      ∀ k, k < 8 → b.getLsbD k = ((s.reg x).getLsbD k || (s.reg y).getLsbD k)) ∧
    (∃ t b, exec (.andReg x y) s = .next t ∧ OnlyReg s t x b ∧
      ∀ k, k < 8 → b.getLsbD k = ((s.reg x).getLsbD k && (s.reg y).getLsbD k)) ∧
    (∃ t b, exec (.xorReg x y) s = .next t ∧ OnlyReg s t x b ∧
      ∀ k, k < 8 → b.getLsbD k = ((s.reg x).getLsbD k != (s.reg y).getLsbD k))

/-- 41_arithmetic_logic.md R157: the sum modulo 256, then VF = carry out; operands read before either write. -/
def Obligations.AddSetsCarry : Prop :=
  ∀ (x y : Reg) (s : State),
    decodeWord (BitVec.ofNat 16 (0x8004 + 0x100 * x.val + 0x10 * y.val)) = .ok (.addReg x y) ∧
    ∃ t, exec (.addReg x y) s = .next t ∧
      RegThenFlag s t x (((s.reg x).toNat + (s.reg y).toNat) % 256)
        (if (s.reg x).toNat + (s.reg y).toNat > 255 then 1 else 0)

/-- 41_arithmetic_logic.md R158: V[x] - V[y], then VF = 0 iff a borrow occurred. -/
def Obligations.SubSetsNotBorrow : Prop :=
  ∀ (x y : Reg) (s : State),
    decodeWord (BitVec.ofNat 16 (0x8005 + 0x100 * x.val + 0x10 * y.val)) = .ok (.subReg x y) ∧
    ∃ t, exec (.subReg x y) s = .next t ∧
      RegThenFlag s t x
        (if (s.reg x).toNat ≥ (s.reg y).toNat then (s.reg x).toNat - (s.reg y).toNat
          else (s.reg x).toNat + 256 - (s.reg y).toNat)
        (if (s.reg x).toNat ≥ (s.reg y).toNat then 1 else 0)

/-- 41_arithmetic_logic.md R160: V[y] - V[x], into V[x], then VF = 0 iff a borrow occurred. -/
def Obligations.SubnSetsNotBorrow : Prop :=
  ∀ (x y : Reg) (s : State),
    decodeWord (BitVec.ofNat 16 (0x8007 + 0x100 * x.val + 0x10 * y.val)) = .ok (.subn x y) ∧
    ∃ t, exec (.subn x y) s = .next t ∧
      RegThenFlag s t x
        (if (s.reg y).toNat ≥ (s.reg x).toNat then (s.reg y).toNat - (s.reg x).toNat
          else (s.reg y).toNat + 256 - (s.reg x).toNat)
        (if (s.reg y).toNat ≥ (s.reg x).toNat then 1 else 0)

/-- 41_arithmetic_logic.md R159: the source is V[y] if SHIFT_USES_VY (left open, log 2), else V[x]; VF = its bit 0. -/
def Obligations.ShiftRightByOne : Prop :=
  ∀ (x y : Reg) (s : State),
    decodeWord (BitVec.ofNat 16 (0x8006 + 0x100 * x.val + 0x10 * y.val)) = .ok (.shr x y) ∧
    ∃ t, exec (.shr x y) s = .next t ∧
      RegThenFlag s t x ((if Config.shiftUsesVy then s.reg y else s.reg x).toNat / 2)
        ((if Config.shiftUsesVy then s.reg y else s.reg x).toNat % 2)

/-- 41_arithmetic_logic.md R161: the source is V[y] if SHIFT_USES_VY (left open, log 2), else V[x]; VF = its bit 7. -/
def Obligations.ShiftLeftByOne : Prop :=
  ∀ (x y : Reg) (s : State),
    decodeWord (BitVec.ofNat 16 (0x800E + 0x100 * x.val + 0x10 * y.val)) = .ok (.shl x y) ∧
    ∃ t, exec (.shl x y) s = .next t ∧
      RegThenFlag s t x (2 * (if Config.shiftUsesVy then s.reg y else s.reg x).toNat % 256)
        ((if Config.shiftUsesVy then s.reg y else s.reg x).toNat / 128)

/-- 41_arithmetic_logic.md R166 (decision D24): V[x] receives the draw, a free value (log 1), masked by kk; every bit
that is 0 in kk is 0; the next RND takes the next draw. -/
def Obligations.RandomByteIsMasked : Prop :=
  ∀ (x : Reg) (kk : Byte) (s : State),
    ∃ t b, exec (.rnd x kk) s = .next t ∧ t.reg x = b ∧ RegsUnchangedBut [x] s t ∧ t.pc = s.pc + 2 ∧
      t.draws = s.draws + 1 ∧ UnchangedBut [.v, .pc, .draws] s t ∧
      ∀ k, k < 8 → b.getLsbD k = ((Config.rnd s.draws).getLsbD k && kk.getLsbD k)

/-! ### Memory and index register -/

/-- 42_memory_index.md R181. -/
def Obligations.LoadIndexImmediate : Prop :=
  ∀ (nnn : Addr12) (s : State),
    decodeWord (BitVec.ofNat 16 (0xA000 + nnn.toNat)) = .ok (.ldI nnn) ∧
    ∃ t, exec (.ldI nnn) s = .next t ∧ OnlyI s t nnn.toNat

/-- 42_memory_index.md R182: modulo 65536, VF not written (decision D14). -/
def Obligations.AddToIndexWraps : Prop :=
  ∀ (x : Reg) (s : State),
    ∃ t, exec (.addI x) s = .next t ∧ OnlyI s t ((s.i.toNat + (s.reg x).toNat) % 65536)

/-- 42_memory_index.md R186: FONT_BASE is 0x000 (decision D17, log 3), and the low nibble selects the digit (decision
D16). -/
def Obligations.FontAddress : Prop :=
  ∀ (x : Reg) (s : State), ∃ t, exec (.ldF x) s = .next t ∧ OnlyI s t (5 * ((s.reg x).toNat % 16))

/-- 42_memory_index.md R183: hundreds at I, tens at I + 1, ones at I + 2 (the digit order is general knowledge, G5),
every other byte as before, I unchanged (decision D13). -/
def Obligations.BcdStoresDigits : Prop :=
  ∀ (x : Reg) (s : State), s.mem.wf = true → s.i.toNat + 2 < 4096 →
    ∃ t, exec (.ldB x) s = .next t ∧
      (t.mem.read s.i.toNat).toNat = (s.reg x).toNat / 100 ∧
      (t.mem.read (s.i.toNat + 1)).toNat = (s.reg x).toNat / 10 % 10 ∧
      (t.mem.read (s.i.toNat + 2)).toNat = (s.reg x).toNat % 10 ∧
      MemUnchangedOutside s.i.toNat 3 s t ∧ t.pc = s.pc + 2 ∧ UnchangedBut [.mem, .pc] s t

/-- 42_memory_index.md R184: V0 to Vx go to I, I + 1, ...; every other byte as before; I unchanged (decision D13). -/
def Obligations.StoreBlock : Prop :=
  ∀ (x : Reg) (s : State), s.mem.wf = true → s.i.toNat + x.val < 4096 →
    ∃ t, exec (.storeRegs x) s = .next t ∧
      (∀ k : Reg, k ≤ x → t.mem.read (s.i.toNat + k.val) = s.reg k) ∧
      MemUnchangedOutside s.i.toNat (x.val + 1) s t ∧ t.pc = s.pc + 2 ∧ UnchangedBut [.mem, .pc] s t

/-- 42_memory_index.md R185: V0 to Vx come from I, I + 1, ...; registers above x and I unchanged (decision D13). -/
def Obligations.LoadBlock : Prop :=
  ∀ (x : Reg) (s : State), s.i.toNat + x.val < 4096 →
    ∃ t, exec (.loadRegs x) s = .next t ∧
      (∀ k : Reg, t.reg k = if k ≤ x then s.mem.read (s.i.toNat + k.val) else s.reg k) ∧
      t.pc = s.pc + 2 ∧ UnchangedBut [.v, .pc] s t

/-- 20_memory.md R73: what a store puts at an address is what the next fetch from there reads. A block of two registers
stored at PC + 2 is the word of the next step. -/
def Obligations.StoreIsSeenByNextFetch : Prop :=
  ∀ (s : State) (i : Instr), s.mem.wf = true → s.fault = 0 → s.wait = false → s.i = s.pc + 2 → s.pc.toNat ≤ 0xFFC →
    decodeWord (wordOfBytes (s.reg 0) (s.reg 1)) = .ok i →
    ∃ t, exec (.storeRegs 1) s = .next t ∧ step t = exec i t

/-! ### Display -/

/-- 43_display.md R201. -/
def Obligations.ClearTurnsEveryPixelOff : Prop :=
  ∀ (s : State),
    decodeWord 0x00E0 = .ok .cls ∧
    ∃ t, exec .cls s = .next t ∧ (∀ x y, pixel t.fb x y = false) ∧ t.pc = s.pc + 2 ∧ UnchangedBut [.fb, .pc] s t

/-- 43_display.md R203 with R200, R202: the rasterizer's loop inverts exactly the pixels the sprite covers, each once,
coordinates wrapped, and VF is 1 iff one of them was on. n = 0 is covered (decision D28); the flag is written last
(decision D9); bit 7 is leftmost (decision D33). -/
def Obligations.DrawXorsCoveredPixels : Prop :=
  ∀ (x y : Reg) (n : Nibble) (s : State), n.toNat = 0 ∨ s.i.toNat + n.toNat - 1 < 4096 →
    ∃ t, exec (.drw x y n) s = .next t ∧
      (∀ px py : Nat, px < 64 → py < 32 →
        (SpriteCovers s x y n px py → pixel t.fb px py = !pixel s.fb px py) ∧
        (¬ SpriteCovers s x y n px py → pixel t.fb px py = pixel s.fb px py)) ∧
      ((∃ px py, SpriteCovers s x y n px py ∧ pixel s.fb px py = true) → t.reg Reg.vf = 1) ∧
      ((¬ ∃ px py, SpriteCovers s x y n px py ∧ pixel s.fb px py = true) → t.reg Reg.vf = 0) ∧
      RegsUnchangedBut [Reg.vf] s t ∧ t.pc = s.pc + 2 ∧ UnchangedBut [.v, .fb, .pc] s t

/-- 43_display.md R203 (e): the same sprite drawn twice at the same place (its coordinates in registers other than VF)
restores the framebuffer, and the second draw reports a collision iff the first had turned a pixel on. -/
def Obligations.DrawTwiceRestores : Prop :=
  ∀ (x y : Reg) (n : Nibble) (s : State), x ≠ Reg.vf → y ≠ Reg.vf →
    n.toNat = 0 ∨ s.i.toNat + n.toNat - 1 < 4096 →
    ∃ t u, exec (.drw x y n) s = .next t ∧ exec (.drw x y n) t = .next u ∧ u.fb = s.fb ∧
      (u.reg Reg.vf = 1 ↔ ∃ px py, SpriteCovers s x y n px py ∧ pixel s.fb px py = false)

/-! ### Timers -/

/-- 44_timers.md R220, R221, R222, with `sound_active` at once as ST is written. -/
def Obligations.TimerInstructions : Prop :=
  ∀ (x : Reg) (s : State),
    decodeWord (BitVec.ofNat 16 (0xF015 + 0x100 * x.val)) = .ok (.ldDtVx x) ∧
    decodeWord (BitVec.ofNat 16 (0xF018 + 0x100 * x.val)) = .ok (.ldStVx x) ∧
    decodeWord (BitVec.ofNat 16 (0xF007 + 0x100 * x.val)) = .ok (.ldVxDt x) ∧
    (∃ t, exec (.ldDtVx x) s = .next t ∧ t.dt = s.reg x ∧ t.pc = s.pc + 2 ∧ UnchangedBut [.dt, .pc] s t) ∧
    (∃ t, exec (.ldStVx x) s = .next t ∧ t.st = s.reg x ∧ t.soundActive = decide ((s.reg x).toNat > 0) ∧
      t.pc = s.pc + 2 ∧ UnchangedBut [.st, .pc] s t) ∧
    (∃ t, exec (.ldVxDt x) s = .next t ∧ OnlyReg s t x s.dt)

/-- 60_exceptions.md R260: each timer down by one if above 0, on its own, in every state; nothing else changes. -/
def Obligations.TickDecrementsNonzeroTimers : Prop :=
  ∀ (s : State),
    s.tickTimers.dt.toNat = (if s.dt.toNat > 0 then s.dt.toNat - 1 else 0) ∧
    s.tickTimers.st.toNat = (if s.st.toNat > 0 then s.st.toNat - 1 else 0) ∧
    UnchangedBut [.dt, .st] s s.tickTimers

/-- Any number of ticks: a timer at d is at d - n, or 0, after n ticks, and never wraps (60_exceptions.md R260). -/
def Obligations.ManyTicksReachZero : Prop :=
  ∀ (n : Nat) (u : Session),
    ∃ u', u.run (List.replicate n .tickTimers) = .next u' ∧
      u'.core.dt.toNat = u.core.dt.toNat - n ∧ u'.core.st.toNat = u.core.st.toNat - n ∧
      UnchangedBut [.dt, .st] u.core u'.core

/-! ### Input -/

/-- 45_input.md R231, R232: the low nibble of V[x] selects the key (R230, decision D15), the level is tested. -/
def Obligations.SkipOnKey : Prop :=
  ∀ (x k : Reg) (s : State), k.val = (s.reg x).toNat % 16 →
    (∃ t, exec (.skp x) s = .next t ∧ OnlyPc s t (if s.key[k] = true then s.pc + 4 else s.pc + 2)) ∧
    (∃ t, exec (.sknp x) s = .next t ∧ OnlyPc s t (if s.key[k] = true then s.pc + 2 else s.pc + 4))

/-- 45_input.md R233 (decision D22): the arming step samples the keys and moves nothing else, PC included. -/
def Obligations.KeyWaitArms : Prop :=
  ∀ (x : Reg) (s : State),
    ∃ t, exec (.ldVxK x) s = .next t ∧ t.wait = true ∧ t.waitX = x ∧ t.keyPrev = s.key ∧ UnchangedBut [.wait] s t

/-- 45_input.md R234 (decisions D22, D23): a poll stores the lowest key that went down since the last sample, ends the
wait and advances PC, and writes nothing else, WAIT_X and the sample included; with no such key only the sample moves. -/
def Obligations.KeyWaitPollResolvesOnPress : Prop :=
  ∀ (s : State), s.fault = 0 → s.wait = true →
    (∀ k : Reg, s.key[k] = true → s.keyPrev[k] = false →
      (∀ j : Reg, j < k → ¬ (s.key[j] = true ∧ s.keyPrev[j] = false)) →
      ∃ t, step s = .next t ∧ t.wait = false ∧ (t.reg s.waitX).toNat = k.val ∧ RegsUnchangedBut [s.waitX] s t ∧
        t.pc = s.pc + 2 ∧ t.waitX = s.waitX ∧ t.keyPrev = s.keyPrev ∧ UnchangedBut [.v, .pc, .wait] s t) ∧
    ((∀ k : Reg, ¬ (s.key[k] = true ∧ s.keyPrev[k] = false)) →
      ∃ t, step s = .next t ∧ t.wait = true ∧ t.waitX = s.waitX ∧ t.keyPrev = s.key ∧ UnchangedBut [.wait] s t)

/-- The blocking key wait (45_input.md R234, R235): while no key goes down, any number of steps leaves the core waiting
with PC and all else but the sample unchanged (decision D22). Steps alone, with no host operation between them: log 13. -/
def Obligations.KeyWaitBlocksWithoutPress : Prop :=
  ∀ (n : Nat) (s : State), s.fault = 0 → s.wait = true →
    (∀ k : Reg, ¬ (s.key[k] = true ∧ s.keyPrev[k] = false)) →
    ∃ t, Sys2Proof.core.run n s = .next t ∧ t.wait = true ∧ t.waitX = s.waitX ∧ UnchangedBut [.wait] s t

/-! ### The host's operations -/

/-- 60_exceptions.md R264 (decision D27): one bit of KEY for an index of 0 to 15; any other index is refused with no
change. -/
def Obligations.SetKeyWritesOneKey : Prop :=
  ∀ (u : Session) (index : Nat) (pressed : Bool),
    (index ≤ 15 → ∃ u', u.apply (.setKey index pressed) = .next (u', .done) ∧ u'.loadOpen = u.loadOpen ∧
      (∀ k : Reg, u'.core.key[k] = if k.val = index then pressed else u.core.key[k]) ∧
      UnchangedBut [.key] u.core u'.core) ∧
    (index > 15 → u.apply (.setKey index pressed) = .next (u, .keyIndexRefused))

/-- 60_exceptions.md R263 and 70_reset_and_hazards.md R306 (decision D26): an image of at most 3584 bytes goes to 0x200
on and nothing else changes, PC and the other bytes included; a longer one is reported OutOfBounds with no change; a
load out of its place is refused (log 7). -/
def Obligations.LoadPlacesImage : Prop :=
  ∀ (u : Session) (image : List Byte), u.core.mem.wf = true →
    (u.loadOpen = true → image.length ≤ 3584 → ∃ u', u.apply (.load image) = .next (u', .done) ∧
      (∀ (k : Nat) (hk : k < image.length), u'.core.mem.read (0x200 + k) = image[k]) ∧
      MemUnchangedOutside 0x200 image.length u.core u'.core ∧ UnchangedBut [.mem] u.core u'.core) ∧
    (u.loadOpen = true → image.length > 3584 → u.apply (.load image) = .next (u, .outOfBounds)) ∧
    (u.loadOpen = false → u.apply (.load image) = .refused .loadOutOfOrder)

/-- 60_exceptions.md R265: the display view is row-major, FB[y][x] at position 64 y + x of 2048. -/
def Obligations.DisplayViewIsRowMajor : Prop :=
  ∀ (s : State), s.displayView.length = 2048 ∧
    ∀ x y : Nat, x < 64 → y < 32 → s.displayView[64 * y + x]? = some (pixel s.fb x y)

/-! ### Rules about the whole machine -/

/-- 10_state.md R38, row by row for what may be written by some instructions and not by others: an instruction that
changes a piece of state is one the row names (V through Fx0A is written by the poll, which is no instruction). KEY is
written by none, FAULT* by a fault only. The last clause is no row of R38: `draws` is the model's own field (R36 says the
draw is no state), DESIGN CHOICE, log 1. -/
def Obligations.OnlyNamedInstructionsWrite : Prop :=
  ∀ (i : Instr) (s t : State), exec i s = .next t →
    (∀ r : Reg, t.reg r ≠ s.reg r →
      (∃ kk, i = .ldByte r kk ∨ i = .addByte r kk ∨ i = .rnd r kk) ∨
      (∃ y, i = .ldReg r y ∨ i = .orReg r y ∨ i = .andReg r y ∨ i = .xorReg r y ∨ i = .addReg r y ∨ i = .subReg r y ∨
        i = .shr r y ∨ i = .subn r y ∨ i = .shl r y) ∨
      i = .ldVxDt r ∨ (∃ x, i = .loadRegs x ∧ r ≤ x) ∨
      (r = Reg.vf ∧ ∃ x y, i = .addReg x y ∨ i = .subReg x y ∨ i = .shr x y ∨ i = .subn x y ∨ i = .shl x y ∨
        ∃ n, i = .drw x y n)) ∧
    t.key = s.key ∧
    (t.fb ≠ s.fb → i = .cls ∨ ∃ x y n, i = .drw x y n) ∧
    (t.mem ≠ s.mem → ∃ x, i = .ldB x ∨ i = .storeRegs x) ∧
    (t.stack ≠ s.stack → ∃ nnn, i = .call nnn) ∧
    (t.sp ≠ s.sp → i = .ret ∨ ∃ nnn, i = .call nnn) ∧
    (t.i ≠ s.i → (∃ nnn, i = .ldI nnn) ∨ ∃ x, i = .addI x ∨ i = .ldF x) ∧
    (t.dt ≠ s.dt → ∃ x, i = .ldDtVx x) ∧ (t.st ≠ s.st → ∃ x, i = .ldStVx x) ∧
    (t.wait ≠ s.wait ∨ t.waitX ≠ s.waitX ∨ t.keyPrev ≠ s.keyPrev → ∃ x, i = .ldVxK x) ∧
    (t.fault ≠ s.fault ∨ t.faultPc ≠ s.faultPc ∨ t.faultOp ≠ s.faultOp →
      t.fault ≠ 0 ∧ UnchangedBut [.fault] s t ∧
        (i = .ret ∨ (∃ nnn, i = .call nnn) ∨ (∃ x y n, i = .drw x y n) ∨
          ∃ x, i = .ldB x ∨ i = .storeRegs x ∨ i = .loadRegs x)) ∧
    (t.draws ≠ s.draws → ∃ x kk, i = .rnd x kk)

/-- 10_state.md R22: an instruction that does not fault changes VF only as one of the six flag writers, leaving 0 or 1,
or because its x field (or the register range of LD Vx,[I]) names VF. -/
def Obligations.VfWrittenOnlyAsFlagOrDestination : Prop :=
  ∀ (i : Instr) (s t : State), exec i s = .next t → t.reg Reg.vf ≠ s.reg Reg.vf →
    ((∃ x y, i = .addReg x y ∨ i = .subReg x y ∨ i = .subn x y ∨ i = .shr x y ∨ i = .shl x y ∨ ∃ n, i = .drw x y n) ∧
      (t.reg Reg.vf = 0 ∨ t.reg Reg.vf = 1)) ∨
    (∃ kk, i = .ldByte Reg.vf kk ∨ i = .addByte Reg.vf kk ∨ i = .rnd Reg.vf kk) ∨
    (∃ y, i = .ldReg Reg.vf y ∨ i = .orReg Reg.vf y ∨ i = .andReg Reg.vf y ∨ i = .xorReg Reg.vf y) ∨
    i = .ldVxDt Reg.vf ∨ i = .loadRegs Reg.vf

/-- 10_state.md R28: no instruction reads ST. For the same random byte, two states that differ only in ST step to states
that differ at most in ST. It compares two runs: both draw from the same `draws`, so an RND gets the same byte in both,
which is the model's form of the draw (log 1) and no rule (41_arithmetic_logic.md R166: two executions are unrelated). -/
def Obligations.NoInstructionReadsSoundTimer : Prop :=
  ∀ (s t : State) (b : Byte), step s = .next t →
    ∃ t', step { s with st := b } = .next t' ∧ UnchangedBut [.st] t t'
end

