-- ==== Sys2Proof/Machine/Assembly.lean ====
section
/-! DEFINITION. The assembler of 30_encoding.md R107, R108: source lines as mnemonic and operands, how they are written
and read, what they assemble to, and the data directives. No part of the machine: `step` sees only the words (log 12). -/

namespace Sys2Proof

/-- The mnemonics (R96, R107); the two spellings of RET are `spellings`. -/
inductive Mnemonic where
  | cls | ret | jp | call | se | sne | ld | add | or | and | xor | sub | shr | subn | shl | rnd | drw | skp | sknp
  deriving DecidableEq, Repr

/-- The operand kinds of R107. A constant stands for `byte`, `addr` or `nibble`; a label for an address. -/
inductive AsmOperand where
  | v (x : Reg)
  | const (n : Nat)
  | label (name : List Char)
  | i | dt | st | k | f | b
  /-- `[I]`, memory starting at I. -/
  | atI
  deriving DecidableEq, Repr

/-- One source line: a mnemonic and its operands, the destination first (R107). -/
structure SourceLine where
  mnemonic : Mnemonic
  operands : List AsmOperand
  deriving DecidableEq, Repr

/-! ### How a line is written (R107) -/

/-- The spellings of a mnemonic, the canonical one first: RETURN is a synonym of RET (decision D36). -/
def Mnemonic.spellings : Mnemonic → List (List Char)
  | .cls => [['C', 'L', 'S']]
  | .ret => [['R', 'E', 'T'], ['R', 'E', 'T', 'U', 'R', 'N']]
  | .jp => [['J', 'P']]
  | .call => [['C', 'A', 'L', 'L']]
  | .se => [['S', 'E']]
  | .sne => [['S', 'N', 'E']]
  | .ld => [['L', 'D']]
  | .add => [['A', 'D', 'D']]
  | .or => [['O', 'R']]
  | .and => [['A', 'N', 'D']]
  | .xor => [['X', 'O', 'R']]
  | .sub => [['S', 'U', 'B']]
  | .shr => [['S', 'H', 'R']]
  | .subn => [['S', 'U', 'B', 'N']]
  | .shl => [['S', 'H', 'L']]
  | .rnd => [['R', 'N', 'D']]
  | .drw => [['D', 'R', 'W']]
  | .skp => [['S', 'K', 'P']]
  | .sknp => [['S', 'K', 'N', 'P']]

/-- A hexadecimal digit, capital as in V0 to VF. -/
def hexDigit (d : Nat) : Char :=
  ['0', '1', '2', '3', '4', '5', '6', '7', '8', '9', 'A', 'B', 'C', 'D', 'E', 'F'].getD (d % 16) '0'

/-- A constant in hexadecimal with `0x`, in as many digits as it needs, up to four. -/
def constText (n : Nat) : List Char :=
  ['0', 'x'] ++
    (if n < 0x10 then [hexDigit n]
     else if n < 0x100 then [hexDigit (n / 0x10), hexDigit n]
     else if n < 0x1000 then [hexDigit (n / 0x100), hexDigit (n / 0x10), hexDigit n]
     else [hexDigit (n / 0x1000), hexDigit (n / 0x100), hexDigit (n / 0x10), hexDigit n])

/-- An operand as text. -/
def AsmOperand.text : AsmOperand → List Char
  | .v x => ['V', hexDigit x.val]
  | .const n => constText n
  | .label name => name
  | .i => ['I']
  | .dt => ['D', 'T']
  | .st => ['S', 'T']
  | .k => ['K']
  | .f => ['F']
  | .b => ['B']
  | .atI => ['[', 'I', ']']

/-- A mnemonic, then comma-separated operands. -/
def SourceLine.text (l : SourceLine) : List Char :=
  l.mnemonic.spellings.headD [] ++
    (if l.operands = [] then [] else [' '] ++ List.intercalate [',', ' '] (l.operands.map AsmOperand.text))

/-! ### What a line assembles to (R96, R107) -/

/-- A constant that must fit a field of `width` bits. -/
def fieldOf (width n : Nat) : Option (BitVec width) := if n < 2 ^ width then some (BitVec.ofNat width n) else none

/-- The forms of LD. -/
def assembleLd : List AsmOperand → Option Instr
  | [.v x, .const kk] => (fieldOf 8 kk).map (.ldByte x)
  | [.v x, .v y] => some (.ldReg x y)
  | [.v x, .dt] => some (.ldVxDt x)
  | [.v x, .k] => some (.ldVxK x)
  | [.v x, .atI] => some (.loadRegs x)
  | [.i, .const nnn] => (fieldOf 12 nnn).map .ldI
  | [.dt, .v x] => some (.ldDtVx x)
  | [.st, .v x] => some (.ldStVx x)
  | [.f, .v x] => some (.ldF x)
  | [.b, .v x] => some (.ldB x)
  | [.atI, .v x] => some (.storeRegs x)
  | _ => none

/-- The forms with two register operands. -/
def assembleRegs (form : Reg → Reg → Instr) : List AsmOperand → Option Instr
  | [.v x, .v y] => some (form x y)
  | _ => none

/-- The shifts: an omitted second operand is V0 (decision D36). -/
def assembleShift (form : Reg → Reg → Instr) : List AsmOperand → Option Instr
  | [.v x, .v y] => some (form x y)
  | [.v x] => some (form x 0)
  | _ => none

/-- The skips that compare with an immediate or a register. -/
def assembleSkip (imm : Reg → Byte → Instr) (reg : Reg → Reg → Instr) : List AsmOperand → Option Instr
  | [.v x, .const kk] => (fieldOf 8 kk).map (imm x)
  | [.v x, .v y] => some (reg x y)
  | _ => none

/-- The instruction of a line whose labels have been replaced; `none` if no instruction is written so. -/
def SourceLine.assemble (l : SourceLine) : Option Instr :=
  match l.mnemonic with
  | .cls => if l.operands = [] then some .cls else none
  | .ret => if l.operands = [] then some .ret else none
  | .jp =>
    match l.operands with
    | [.const nnn] => (fieldOf 12 nnn).map .jp
    | [.v x, .const nnn] => if x = 0 then (fieldOf 12 nnn).map .jpV0 else none
    | _ => none
  | .call =>
    match l.operands with
    | [.const nnn] => (fieldOf 12 nnn).map .call
    | _ => none
  | .se => assembleSkip .seByte .seReg l.operands
  | .sne => assembleSkip .sneByte .sneReg l.operands
  | .ld => assembleLd l.operands
  | .add =>
    match l.operands with
    | [.v x, .const kk] => (fieldOf 8 kk).map (.addByte x)
    | [.v x, .v y] => some (.addReg x y)
    | [.i, .v x] => some (.addI x)
    | _ => none
  | .or => assembleRegs .orReg l.operands
  | .and => assembleRegs .andReg l.operands
  | .xor => assembleRegs .xorReg l.operands
  | .sub => assembleRegs .subReg l.operands
  | .shr => assembleShift .shr l.operands
  | .subn => assembleRegs .subn l.operands
  | .shl => assembleShift .shl l.operands
  | .rnd =>
    match l.operands with
    | [.v x, .const kk] => (fieldOf 8 kk).map (.rnd x)
    | _ => none
  | .drw =>
    match l.operands with
    | [.v x, .v y, .const n] => (fieldOf 4 n).map (.drw x y)
    | _ => none
  | .skp =>
    match l.operands with
    | [.v x] => some (.skp x)
    | _ => none
  | .sknp =>
    match l.operands with
    | [.v x] => some (.sknp x)
    | _ => none

/-- The line of an instruction (the mnemonic column of R96). -/
def Instr.source : Instr → SourceLine
  | .cls => ⟨.cls, []⟩
  | .ret => ⟨.ret, []⟩
  | .jp nnn => ⟨.jp, [.const nnn.toNat]⟩
  | .call nnn => ⟨.call, [.const nnn.toNat]⟩
  | .seByte x kk => ⟨.se, [.v x, .const kk.toNat]⟩
  | .sneByte x kk => ⟨.sne, [.v x, .const kk.toNat]⟩
  | .seReg x y => ⟨.se, [.v x, .v y]⟩
  | .ldByte x kk => ⟨.ld, [.v x, .const kk.toNat]⟩
  | .addByte x kk => ⟨.add, [.v x, .const kk.toNat]⟩
  | .ldReg x y => ⟨.ld, [.v x, .v y]⟩
  | .orReg x y => ⟨.or, [.v x, .v y]⟩
  | .andReg x y => ⟨.and, [.v x, .v y]⟩
  | .xorReg x y => ⟨.xor, [.v x, .v y]⟩
  | .addReg x y => ⟨.add, [.v x, .v y]⟩
  | .subReg x y => ⟨.sub, [.v x, .v y]⟩
  | .shr x y => ⟨.shr, [.v x, .v y]⟩
  | .subn x y => ⟨.subn, [.v x, .v y]⟩
  | .shl x y => ⟨.shl, [.v x, .v y]⟩
  | .sneReg x y => ⟨.sne, [.v x, .v y]⟩
  | .ldI nnn => ⟨.ld, [.i, .const nnn.toNat]⟩
  | .jpV0 nnn => ⟨.jp, [.v 0, .const nnn.toNat]⟩
  | .rnd x kk => ⟨.rnd, [.v x, .const kk.toNat]⟩
  | .drw x y n => ⟨.drw, [.v x, .v y, .const n.toNat]⟩
  | .skp x => ⟨.skp, [.v x]⟩
  | .sknp x => ⟨.sknp, [.v x]⟩
  | .ldVxDt x => ⟨.ld, [.v x, .dt]⟩
  | .ldVxK x => ⟨.ld, [.v x, .k]⟩
  | .ldDtVx x => ⟨.ld, [.dt, .v x]⟩
  | .ldStVx x => ⟨.ld, [.st, .v x]⟩
  | .addI x => ⟨.add, [.i, .v x]⟩
  | .ldF x => ⟨.ld, [.f, .v x]⟩
  | .ldB x => ⟨.ld, [.b, .v x]⟩
  | .storeRegs x => ⟨.ld, [.atI, .v x]⟩
  | .loadRegs x => ⟨.ld, [.v x, .atI]⟩

/-! ### Listings (R108) -/

/-- One item of a listing: a line, or a directive (decision D36). -/
inductive ListingItem where
  | line (l : SourceLine)
  /-- `DB b0, b1, ...`. -/
  | db (bytes : List Byte)
  /-- `DW w`, high byte first. -/
  | dw (w : Word)
  /-- `label:`, the address of the next byte. -/
  | label (name : List Char)
  /-- `ORG a`, sets the address of the next byte. -/
  | org (a : Nat)
  deriving DecidableEq, Repr

/-- The address after an item that starts at `a`. -/
def ListingItem.after (a : Nat) : ListingItem → Nat
  | .line _ => a + 2
  | .db bytes => a + bytes.length
  | .dw _ => a + 2
  | .label _ => a
  | .org b => b

/-- The labels of a listing that starts at `a`. -/
def labelTable : Nat → List ListingItem → List (List Char × Nat)
  | _, [] => []
  | a, .label name :: items => (name, a) :: labelTable a items
  | a, item :: items => labelTable (item.after a) items

/-- An operand with its label, if any, replaced by the address. -/
def AsmOperand.resolve (table : List (List Char × Nat)) : AsmOperand → Option AsmOperand
  | .label name => (table.lookup name).map .const
  | o => some o

/-- The operands of a line with their labels replaced. -/
def resolveAll (table : List (List Char × Nat)) : List AsmOperand → Option (List AsmOperand)
  | [] => some []
  | o :: os =>
    match o.resolve table, resolveAll table os with
    | some o', some os' => some (o' :: os')
    | _, _ => none

/-- The bytes of an item; `none` if a label is missing or a line is no instruction. -/
def ListingItem.bytes (table : List (List Char × Nat)) : ListingItem → Option (List Byte)
  | .line l =>
    match resolveAll table l.operands with
    | some os => (SourceLine.assemble ⟨l.mnemonic, os⟩).map fun i => bytesOfWord (encode i)
    | none => none
  | .db bytes => some bytes
  | .dw w => some (bytesOfWord w)
  | .label _ => some []
  | .org _ => some []

/-- The bytes of a listing, each with its address. -/
def placeFrom (table : List (List Char × Nat)) : Nat → List ListingItem → Option (List (Nat × Byte))
  | _, [] => some []
  | a, item :: items =>
    match item.bytes table, placeFrom table (item.after a) items with
    | some bytes, some rest => some ((bytes.zipIdx a).map (fun p => (p.2, p.1)) ++ rest)
    | _, _ => none

/-- What a listing assembles to, from PROG_BASE on: each byte with its address. -/
def assembleListing (items : List ListingItem) : Option (List (Nat × Byte)) :=
  placeFrom (labelTable progBase items) progBase items

/-! ### Reading a line (R107, R108) -/

/-- The mnemonics, for looking one up by its spelling. -/
def mnemonics : List Mnemonic :=
  [.cls, .ret, .jp, .call, .se, .sne, .ld, .add, .or, .and, .xor, .sub, .shr, .subn, .shl, .rnd, .drw, .skp, .sknp]

/-- A mnemonic from its spelling. -/
def readMnemonic (cs : List Char) : Option Mnemonic := mnemonics.find? fun m => m.spellings.contains cs

/-- The value of a hexadecimal digit. -/
def readDigit (c : Char) : Option Nat :=
  ['0', '1', '2', '3', '4', '5', '6', '7', '8', '9', 'A', 'B', 'C', 'D', 'E', 'F'].findIdx? (· == c)

/-- Hexadecimal digits read onto a value. -/
def readDigits : Nat → List Char → Option Nat
  | n, [] => some n
  | n, c :: cs =>
    match readDigit c with
    | some d => readDigits (16 * n + d) cs
    | none => none

/-- A constant: `0x` and digits, or one digit, which is the same in every base. -/
def readConst : List Char → Option Nat
  | '0' :: 'x' :: c :: cs => readDigits 0 (c :: cs)
  | [c] => if c.isDigit then readDigit c else none
  | _ => none

/-- A list cut at each `sep`. -/
def splitAt (sep : Char) : List Char → List (List Char)
  | [] => [[]]
  | c :: cs =>
    if c = sep then [] :: splitAt sep cs
    else
      match splitAt sep cs with
      | w :: ws => (c :: w) :: ws
      | [] => [[c]]

/-- Without the spaces around it. -/
def trim (cs : List Char) : List Char := ((cs.dropWhile (· == ' ')).reverse.dropWhile (· == ' ')).reverse

/-- An operand from its text; what is no register, constant or fixed name is a label. -/
def readOperand (cs : List Char) : Option AsmOperand :=
  match cs with
  | [] => none
  | ['I'] => some .i
  | ['D', 'T'] => some .dt
  | ['S', 'T'] => some .st
  | ['K'] => some .k
  | ['F'] => some .f
  | ['B'] => some .b
  | ['[', 'I', ']'] => some .atI
  | c :: rest =>
    match readConst (c :: rest), c, rest with
    | some n, _, _ => some (.const n)
    | none, 'V', [d] => (readDigit d).map fun n => .v (Fin.ofNat 16 n)
    | none, _, _ => if c.isAlpha && rest.all Char.isAlphanum then some (.label (c :: rest)) else none

/-- All of a list, if each element answers. -/
def readAll {α β : Type} (read : α → Option β) : List α → Option (List β)
  | [] => some []
  | a :: as =>
    match read a, readAll read as with
    | some b, some bs => some (b :: bs)
    | _, _ => none

/-- What follows a mnemonic or a directive: comma-separated texts, or nothing. -/
def operandTexts (cs : List Char) : List (List Char) := if trim cs = [] then [] else (splitAt ',' cs).map trim

/-- A line without a label: a directive or an instruction. -/
def readStatement (cs : List Char) : Option ListingItem :=
  let word := cs.takeWhile (· != ' ')
  let texts := operandTexts (cs.dropWhile (· != ' '))
  if word = ['D', 'B'] then
    (readAll (fun t => (readConst t).bind (fieldOf 8)) texts).map .db
  else if word = ['D', 'W'] then
    match texts with
    | [t] => ((readConst t).bind (fieldOf 16)).map .dw
    | _ => none
  else if word = ['O', 'R', 'G'] then
    match texts with
    | [t] => (readConst t).map .org
    | _ => none
  else
    match readMnemonic word, readAll readOperand texts with
    | some m, some os => some (.line ⟨m, os⟩)
    | _, _ => none

/-- A line, with a label before it or not, or a label alone. -/
def readLine (cs : List Char) : Option (List ListingItem) :=
  match splitAt ':' cs with
  | [body] => (readStatement (trim body)).map fun item => [item]
  | [name, body] =>
    if trim body = [] then some [.label (trim name)]
    else (readStatement (trim body)).map fun item => [.label (trim name), item]
  | _ => none

/-- The bytes of lines of text, each with its address. -/
def assembleText (lines : List (List Char)) : Option (List (Nat × Byte)) :=
  (readAll readLine lines).bind fun items => assembleListing items.flatten

end Sys2Proof
end

