-- ==== Sys2Proof/Laws/Assembly.lean ====
section
/-! SUPPORT. Every instruction can be written, and its line assembles to it. -/

namespace Sys2Proof

theorem fieldOf_toNat {n : Nat} (b : BitVec n) : fieldOf n b.toNat = some b := by simp [fieldOf, b.isLt]

/-- Assembling the line of an instruction gives it back. -/
theorem Instr.assemble_source (i : Instr) : i.source.assemble = some i := by
  cases i <;>
  simp [Instr.source, SourceLine.assemble, assembleLd, assembleRegs, assembleShift, assembleSkip, fieldOf_toNat]

/-- No two mnemonics share a canonical spelling. -/
theorem Mnemonic.spellings_distinct (m m' : Mnemonic) (h : m.spellings.head? = m'.spellings.head?) : m = m' := by
  cases m <;> cases m' <;> first | rfl | (revert h; decide)

end Sys2Proof
end

