-- ==== Sys2Proof/Laws/Decode.lean ====
section
/-! SUPPORT. What each field reads in each format, and each format rebuilt from its fields. -/

namespace Sys2Proof

@[simp] theorem ofFin_toFin_nibble (b : Nibble) : (BitVec.ofFin (b.toFin : Reg) : Nibble) = b := rfl

@[simp] theorem toFin_ofFin_reg (x : Reg) : ((BitVec.ofFin x : Nibble).toFin : Reg) = x := rfl

/-- The sixteen values of a nibble, for a case split on a family. -/
theorem nibble_cases (n : Nibble) :
    n = 0x0 ∨ n = 0x1 ∨ n = 0x2 ∨ n = 0x3 ∨ n = 0x4 ∨ n = 0x5 ∨ n = 0x6 ∨ n = 0x7 ∨ n = 0x8 ∨ n = 0x9 ∨ n = 0xA ∨
      n = 0xB ∨ n = 0xC ∨ n = 0xD ∨ n = 0xE ∨ n = 0xF := by
  revert n; decide

/-- The low part of an appended pair. -/
theorem extract_append_low {u v : Nat} (a : BitVec u) (b : BitVec v) (start len : Nat) (h : start + len ≤ v) :
    (a ++ b).extractLsb' start len = b.extractLsb' start len := by
  ext i hi
  simp only [BitVec.getElem_extractLsb', BitVec.getLsbD_append]
  simp [show start + i < v by omega]

/-- The high part of an appended pair. -/
theorem extract_append_high {u v : Nat} (a : BitVec u) (b : BitVec v) (start len : Nat) (h : v ≤ start) :
    (a ++ b).extractLsb' start len = a.extractLsb' (start - v) len := by
  ext i hi
  simp only [BitVec.getElem_extractLsb', BitVec.getLsbD_append]
  simp [show ¬ start + i < v by omega, show start + i - v = start - v + i by omega]

theorem extract_all {v : Nat} (b : BitVec v) : b.extractLsb' 0 v = b := by
  ext i hi; simp

section formats

variable (f n : Nibble) (x y : Reg) (kk : Byte) (nnn : Addr12)

@[simp] theorem family_formatNNN : fieldFamily (formatNNN f nnn) = f :=
  (extract_append_high f nnn 12 4 (by decide)).trans (extract_all f)

@[simp] theorem nnn_formatNNN : fieldNNN (formatNNN f nnn) = nnn :=
  (extract_append_low f nnn 0 12 (by decide)).trans (extract_all nnn)

@[simp] theorem family_formatXKK : fieldFamily (formatXKK f x kk) = f :=
  (extract_append_high (f ++ (BitVec.ofFin x : Nibble)) kk 12 4 (by decide)).trans
    ((extract_append_high f (BitVec.ofFin x : Nibble) 4 4 (by decide)).trans (extract_all f))

@[simp] theorem x_formatXKK : fieldX (formatXKK f x kk) = x :=
  congrArg BitVec.toFin ((extract_append_high (f ++ (BitVec.ofFin x : Nibble)) kk 8 4 (by decide)).trans
    ((extract_append_low f (BitVec.ofFin x : Nibble) 0 4 (by decide)).trans (extract_all _)))

@[simp] theorem kk_formatXKK : fieldKK (formatXKK f x kk) = kk :=
  (extract_append_low (f ++ (BitVec.ofFin x : Nibble)) kk 0 8 (by decide)).trans (extract_all kk)

/-- Format XYN is format XKK with the low byte `y`, `n`. -/
theorem formatXYN_eq : formatXYN f x y n = formatXKK f x ((BitVec.ofFin y : Nibble) ++ n) := by
  unfold formatXYN formatXKK
  exact BitVec.append_assoc

@[simp] theorem family_formatXYN : fieldFamily (formatXYN f x y n) = f := by
  rw [formatXYN_eq, family_formatXKK]

@[simp] theorem x_formatXYN : fieldX (formatXYN f x y n) = x := by
  rw [formatXYN_eq, x_formatXKK]

@[simp] theorem y_formatXYN : fieldY (formatXYN f x y n) = y :=
  congrArg BitVec.toFin
    ((extract_append_high (f ++ (BitVec.ofFin x : Nibble) ++ (BitVec.ofFin y : Nibble)) n 4 4 (by decide)).trans
      ((extract_append_low (f ++ (BitVec.ofFin x : Nibble)) (BitVec.ofFin y : Nibble) 0 4 (by decide)).trans
        (extract_all _)))

@[simp] theorem n_formatXYN : fieldN (formatXYN f x y n) = n :=
  (extract_append_low (f ++ (BitVec.ofFin x : Nibble) ++ (BitVec.ofFin y : Nibble)) n 0 4 (by decide)).trans
    (extract_all n)

end formats

/-- A slice of 'high then low' slices that meet is one slice. -/
theorem append_extract (w : Word) (hi lo start : Nat) :
    w.extractLsb' (start + lo) hi ++ w.extractLsb' start lo = w.extractLsb' start (hi + lo) := by
  ext i h
  simp only [BitVec.getElem_append, BitVec.getElem_extractLsb']
  split
  · rfl
  · congr 1; omega

/-- Every word is the format NNN of its fields. -/
theorem formatNNN_fields (w : Word) : formatNNN (fieldFamily w) (fieldNNN w) = w :=
  (append_extract w 4 12 0).trans (extract_all w)

/-- Every word is the format XKK of its fields. -/
theorem formatXKK_fields (w : Word) : formatXKK (fieldFamily w) (fieldX w) (fieldKK w) = w := by
  have h : (fieldFamily w ++ (BitVec.ofFin (fieldX w) : Nibble) : Byte) = w.extractLsb' 8 8 := append_extract w 4 4 8
  unfold formatXKK
  rw [h]
  exact (append_extract w 8 8 0).trans (extract_all w)

/-- Every word is the format XYN of its fields. -/
theorem formatXYN_fields (w : Word) : formatXYN (fieldFamily w) (fieldX w) (fieldY w) (fieldN w) = w := by
  have h : ((BitVec.ofFin (fieldY w) : Nibble) ++ fieldN w : Byte) = fieldKK w := append_extract w 4 4 0
  rw [formatXYN_eq]
  exact (congrArg (formatXKK (fieldFamily w) (fieldX w)) h).trans (formatXKK_fields w)

/-! ### Formats as numbers (30_encoding.md R92) -/

/-- An appended pair as a number. -/
theorem toNat_append_add {u v : Nat} (a : BitVec u) (b : BitVec v) : (a ++ b).toNat = 2 ^ v * a.toNat + b.toNat := by
  rw [BitVec.toNat_append, ← Nat.shiftLeft_add_eq_or_of_lt b.isLt, Nat.shiftLeft_eq, Nat.mul_comm]

theorem toNat_formatNNN (f : Nibble) (nnn : Addr12) : (formatNNN f nnn).toNat = 0x1000 * f.toNat + nnn.toNat :=
  toNat_append_add f nnn

theorem toNat_formatXKK (f : Nibble) (x : Reg) (kk : Byte) :
    (formatXKK f x kk).toNat = 0x1000 * f.toNat + 0x100 * x.val + kk.toNat := by
  have h1 : (formatXKK f x kk).toNat = 2 ^ 8 * (f ++ (BitVec.ofFin x : Nibble)).toNat + kk.toNat :=
    toNat_append_add (f ++ (BitVec.ofFin x : Nibble)) kk
  have h2 : (BitVec.ofFin x : Nibble).toNat = x.val := rfl
  rw [h1, toNat_append_add, h2]
  omega

theorem toNat_formatXYN (f : Nibble) (x y : Reg) (n : Nibble) :
    (formatXYN f x y n).toNat = 0x1000 * f.toNat + 0x100 * x.val + 0x10 * y.val + n.toNat := by
  have h : (BitVec.ofFin y : Nibble).toNat = y.val := rfl
  rw [formatXYN_eq, toNat_formatXKK, toNat_append_add, h]
  omega

/-! ### Fields as numbers -/

theorem toNat_fieldFamily (w : Word) : (fieldFamily w).toNat = w.toNat / 0x1000 := by
  simp only [fieldFamily, BitVec.extractLsb'_toNat, Nat.shiftRight_eq_div_pow]
  have := w.isLt
  omega

theorem toNat_fieldKK (w : Word) : (fieldKK w).toNat = w.toNat % 0x100 := by
  simp [fieldKK]

theorem toNat_fieldN (w : Word) : (fieldN w).toNat = w.toNat % 0x10 := by
  simp [fieldN]

/-- The word of two bytes as a number: big-endian (20_memory.md R65). -/
theorem toNat_wordOfBytes (hi lo : Byte) : (wordOfBytes hi lo).toNat = 256 * hi.toNat + lo.toNat :=
  toNat_append_add hi lo

/-- The two bytes of a word in memory order give the word back. -/
@[simp] theorem wordOfBytes_bytesOfWord (w : Word) :
    wordOfBytes (w.extractLsb' 8 8) (w.extractLsb' 0 8) = w :=
  (append_extract w 8 8 0).trans (extract_all w)

/-- Every legal word's decoding takes two bytes and no more (30_encoding.md R91). -/
theorem decodeBytes_bytesOfWord (w : Word) (rest : List Byte) :
    decodeBytes (bytesOfWord w ++ rest) =
      match decodeWord w with
      | .ok i => .ok (i, rest)
      | .error e => .error e := by
  cases h : decodeWord w <;> simp [bytesOfWord, decodeBytes, h]

end Sys2Proof
end

