-- ==== Sys2Proof/Laws/Memory.lean ====
section
/-! SUPPORT. Memory: a read after a write, the canonical form, and consecutive writes. -/

namespace Sys2Proof.Machine

@[simp] theorem Memory.read_put_self (m : Memory) (a : Nat) (b : Byte) (h : Memory.read m a = resetByte a) :
    (Memory.put a b m).read a = b := by
  unfold Memory.put
  split
  · simp_all
  · simp [Memory.read]

theorem Memory.read_put_ne (m : Memory) (a c : Nat) (b : Byte) (h : a ≠ c) :
    (Memory.put a b m).read c = m.read c := by
  unfold Memory.put
  split
  · rfl
  · simp [Memory.read, h]

/-- Below the first listed address a canonical memory reads its reset contents. -/
theorem Memory.read_below : ∀ (m : Memory) (lo a : Nat), Memory.wfFrom lo m = true → a < lo → m.read a = resetByte a
  | [], _, _, _, _ => rfl
  | (k, b) :: m, lo, a, h, ha => by
    simp only [Memory.wfFrom, Bool.and_eq_true, decide_eq_true_eq] at h
    obtain ⟨⟨⟨hlo, _⟩, _⟩, hm⟩ := h
    have hk : k ≠ a := by omega
    simp [Memory.read, hk, Memory.read_below m (k + 1) a hm (by omega)]

theorem Memory.wfFrom_mono : ∀ (m : Memory) (lo lo' : Nat), Memory.wfFrom lo m = true → lo' ≤ lo →
    Memory.wfFrom lo' m = true
  | [], _, _, _, _ => rfl
  | (k, b) :: m, lo, lo', h, hl => by
    simp only [Memory.wfFrom, Bool.and_eq_true, decide_eq_true_eq] at h ⊢
    exact ⟨⟨⟨by omega, h.1.1.2⟩, h.1.2⟩, h.2⟩

theorem Memory.wfFrom_put (m : Memory) (lo a : Nat) (b : Byte) (hm : Memory.wfFrom (a + 1) m = true) (hl : lo ≤ a)
    (ha : a < memSize) : Memory.wfFrom lo (Memory.put a b m) = true := by
  unfold Memory.put
  split
  · exact Memory.wfFrom_mono m _ _ hm (by omega)
  · rename_i h
    simp [Memory.wfFrom, hm, hl, ha, h]

/-- A write at an existing address keeps the canonical form. -/
theorem Memory.wfFrom_write : ∀ (m : Memory) (lo a : Nat) (b : Byte), Memory.wfFrom lo m = true → lo ≤ a →
    a < memSize → Memory.wfFrom lo (m.write a b) = true
  | [], lo, a, b, _, hl, ha => Memory.wfFrom_put [] lo a b rfl hl ha
  | (k, c) :: m, lo, a, b, h, hl, ha => by
    have h0 := h
    simp only [Memory.wfFrom, Bool.and_eq_true, decide_eq_true_eq] at h
    obtain ⟨⟨⟨hlo, hk⟩, hc⟩, hm⟩ := h
    unfold Memory.write
    split
    · refine Memory.wfFrom_put _ lo a b ?_ hl ha
      simp only [Memory.wfFrom, Bool.and_eq_true, decide_eq_true_eq]
      exact ⟨⟨⟨by omega, hk⟩, hc⟩, hm⟩
    · split
      · subst_vars
        exact Memory.wfFrom_put m lo _ b hm hl ha
      · simp only [Memory.wfFrom, Bool.and_eq_true, decide_eq_true_eq]
        exact ⟨⟨⟨hlo, hk⟩, hc⟩, Memory.wfFrom_write m (k + 1) a b hm (by omega) ha⟩

/-- A write at an existing address keeps the canonical form. -/
theorem Memory.wf_write (m : Memory) (a : Nat) (b : Byte) (h : m.wf = true) (ha : a < memSize) :
    (m.write a b).wf = true := Memory.wfFrom_write m 0 a b h (Nat.zero_le a) ha

/-- A write leaves every other address alone, in any memory. -/
theorem Memory.read_write_ne : ∀ (m : Memory) (a c : Nat) (b : Byte), c ≠ a → (m.write a b).read c = m.read c
  | [], a, c, b, h => Memory.read_put_ne [] a c b (Ne.symm h)
  | (k, d) :: m, a, c, b, h => by
    unfold Memory.write
    split
    · exact Memory.read_put_ne _ a c b (Ne.symm h)
    · split
      · subst_vars
        rw [Memory.read_put_ne _ _ c b (Ne.symm h)]
        simp [Memory.read, Ne.symm h]
      · simp only [Memory.read]
        split
        · rfl
        · exact Memory.read_write_ne m a c b h

/-- A read after a write to the same address gives the byte written, in a canonical memory. -/
theorem Memory.read_write_self_from : ∀ (m : Memory) (lo a : Nat) (b : Byte), Memory.wfFrom lo m = true →
    (m.write a b).read a = b
  | [], _, a, b, _ => Memory.read_put_self [] a b rfl
  | (k, d) :: m, lo, a, b, h => by
    have h0 := h
    simp only [Memory.wfFrom, Bool.and_eq_true, decide_eq_true_eq] at h
    obtain ⟨⟨⟨hlo, hk⟩, hc⟩, hm⟩ := h
    unfold Memory.write
    split
    · refine Memory.read_put_self _ a b (Memory.read_below _ k a ?_ ‹_›)
      simp only [Memory.wfFrom, Bool.and_eq_true, decide_eq_true_eq]
      exact ⟨⟨⟨Nat.le_refl k, hk⟩, hc⟩, hm⟩
    · split
      · subst_vars
        exact Memory.read_put_self m _ b (Memory.read_below m (a + 1) a hm (by omega))
      · have hka : k ≠ a := by omega
        simp [Memory.read, hka, Memory.read_write_self_from m (k + 1) a b hm]

/-- A read after a write to the same address gives the byte written, in a canonical memory. -/
theorem Memory.read_write_self (m : Memory) (a : Nat) (b : Byte) (h : m.wf = true) : (m.write a b).read a = b :=
  Memory.read_write_self_from m 0 a b h

/-- Consecutive writes at existing addresses keep the canonical form. -/
theorem Memory.wf_writeBytes : ∀ (bs : List Byte) (m : Memory) (a : Nat), m.wf = true → a + bs.length ≤ memSize →
    (m.writeBytes a bs).wf = true
  | [], _, _, h, _ => h
  | b :: bs, m, a, h, ha => by
    simp only [List.length_cons] at ha
    exact Memory.wf_writeBytes bs (m.write a b) (a + 1) (Memory.wf_write m a b h (by omega)) (by omega)

/-- Consecutive writes leave every address outside them alone, in any memory. -/
theorem Memory.read_writeBytes_outside : ∀ (bs : List Byte) (m : Memory) (a c : Nat), c < a ∨ a + bs.length ≤ c →
    (m.writeBytes a bs).read c = m.read c
  | [], _, _, _, _ => rfl
  | b :: bs, m, a, c, h => by
    simp only [List.length_cons] at h
    show (Memory.writeBytes (m.write a b) (a + 1) bs).read c = _
    rw [Memory.read_writeBytes_outside bs (m.write a b) (a + 1) c (by omega),
      Memory.read_write_ne m a c b (by omega)]

/-- Consecutive writes put the k-th byte at the k-th address, in a canonical memory. -/
theorem Memory.read_writeBytes_inside : ∀ (bs : List Byte) (m : Memory) (a k : Nat) (hk : k < bs.length),
    m.wf = true → a + bs.length ≤ memSize → (m.writeBytes a bs).read (a + k) = bs[k]
  | b :: bs, m, a, 0, _, hm, _ => by
    show (Memory.writeBytes (m.write a b) (a + 1) bs).read a = b
    rw [Memory.read_writeBytes_outside bs _ (a + 1) a (by omega), Memory.read_write_self m a b hm]
  | b :: bs, m, a, k + 1, hk, hm, ha => by
    simp only [List.length_cons] at hk ha
    show (Memory.writeBytes (m.write a b) (a + 1) bs).read (a + (k + 1)) = bs[k]
    rw [show a + (k + 1) = a + 1 + k by omega]
    exact Memory.read_writeBytes_inside bs _ (a + 1) k (by omega) (Memory.wf_write m a b hm (by omega)) (by omega)

/-- Reset memory is canonical. -/
theorem Memory.wf_reset : State.reset.mem.wf = true := rfl

/-- Two canonical memories that read alike are equal lists. -/
theorem Memory.ext_from : ∀ (m m' : Memory) (lo : Nat), Memory.wfFrom lo m = true → Memory.wfFrom lo m' = true →
    (∀ a, m.read a = m'.read a) → m = m'
  | [], [], _, _, _, _ => rfl
  | [], (k, b) :: m', lo, _, h', hr => by
    simp only [Memory.wfFrom, Bool.and_eq_true, decide_eq_true_eq, bne_iff_ne] at h'
    have := hr k
    simp only [Memory.read, if_true] at this
    exact absurd this.symm h'.1.2
  | (k, b) :: m, [], lo, h, _, hr => by
    simp only [Memory.wfFrom, Bool.and_eq_true, decide_eq_true_eq, bne_iff_ne] at h
    have := hr k
    simp only [Memory.read, if_true] at this
    exact absurd this h.1.2
  | (k, b) :: m, (k', b') :: m', lo, h, h', hr => by
    have w := h
    have w' := h'
    simp only [Memory.wfFrom, Bool.and_eq_true, decide_eq_true_eq, bne_iff_ne] at h h'
    obtain ⟨⟨⟨_, hk⟩, hb⟩, hm⟩ := h
    obtain ⟨⟨⟨_, hk'⟩, hb'⟩, hm'⟩ := h'
    have hkk : k = k' := by
      by_contra hne
      rcases Nat.lt_or_gt_of_ne hne with hlt | hgt
      · have e := hr k
        simp only [Memory.read, if_true, if_neg (Ne.symm hne)] at e
        rw [Memory.read_below m' (k' + 1) k hm' (by omega)] at e
        exact hb e
      · have e := hr k'
        simp only [Memory.read, if_true, if_neg hne] at e
        rw [Memory.read_below m (k + 1) k' hm (by omega)] at e
        exact hb' e.symm
    subst hkk
    have hbb : b = b' := by
      have e := hr k
      simpa only [Memory.read, if_true] using e
    subst hbb
    have : m = m' := by
      refine Memory.ext_from m m' (k + 1) hm hm' fun a => ?_
      by_cases ha : k = a
      · subst ha
        rw [Memory.read_below m (k + 1) k hm (by omega), Memory.read_below m' (k + 1) k hm' (by omega)]
      · have e := hr a
        simpa only [Memory.read, if_neg ha] using e
    rw [this]

/-- Two canonical memories that read alike are equal: equal memories are equal data. -/
theorem Memory.eq_of_read (m m' : Memory) (h : m.wf = true) (h' : m'.wf = true) (hr : ∀ a, m.read a = m'.read a) :
    m = m' := Memory.ext_from m m' 0 h h' hr

end Sys2Proof.Machine
end

