-- ==== Sys2Proof/Laws/State.lean ====
section
/-! SUPPORT. One lemma per field per update of the state, and what a register reads after a register write. -/

namespace Sys2Proof.Machine

/-! ### `V[x] <- b` -/

@[simp] theorem State.setReg_v (s : State) (x : Reg) (b : Byte) : (s.setReg x b).v = s.v.set x b := rfl
@[simp] theorem State.setReg_i (s : State) (x : Reg) (b : Byte) : (s.setReg x b).i = s.i := rfl
@[simp] theorem State.setReg_pc (s : State) (x : Reg) (b : Byte) : (s.setReg x b).pc = s.pc := rfl
@[simp] theorem State.setReg_sp (s : State) (x : Reg) (b : Byte) : (s.setReg x b).sp = s.sp := rfl
@[simp] theorem State.setReg_stack (s : State) (x : Reg) (b : Byte) : (s.setReg x b).stack = s.stack := rfl
@[simp] theorem State.setReg_dt (s : State) (x : Reg) (b : Byte) : (s.setReg x b).dt = s.dt := rfl
@[simp] theorem State.setReg_st (s : State) (x : Reg) (b : Byte) : (s.setReg x b).st = s.st := rfl
@[simp] theorem State.setReg_fb (s : State) (x : Reg) (b : Byte) : (s.setReg x b).fb = s.fb := rfl
@[simp] theorem State.setReg_key (s : State) (x : Reg) (b : Byte) : (s.setReg x b).key = s.key := rfl
@[simp] theorem State.setReg_mem (s : State) (x : Reg) (b : Byte) : (s.setReg x b).mem = s.mem := rfl
@[simp] theorem State.setReg_wait (s : State) (x : Reg) (b : Byte) : (s.setReg x b).wait = s.wait := rfl
@[simp] theorem State.setReg_waitX (s : State) (x : Reg) (b : Byte) : (s.setReg x b).waitX = s.waitX := rfl
@[simp] theorem State.setReg_keyPrev (s : State) (x : Reg) (b : Byte) : (s.setReg x b).keyPrev = s.keyPrev := rfl
@[simp] theorem State.setReg_fault (s : State) (x : Reg) (b : Byte) : (s.setReg x b).fault = s.fault := rfl
@[simp] theorem State.setReg_faultPc (s : State) (x : Reg) (b : Byte) : (s.setReg x b).faultPc = s.faultPc := rfl
@[simp] theorem State.setReg_faultOp (s : State) (x : Reg) (b : Byte) : (s.setReg x b).faultOp = s.faultOp := rfl
@[simp] theorem State.setReg_draws (s : State) (x : Reg) (b : Byte) : (s.setReg x b).draws = s.draws := rfl

/-! ### PC + 2 -/

@[simp] theorem State.advance_v (s : State) : s.advance.v = s.v := rfl
@[simp] theorem State.advance_i (s : State) : s.advance.i = s.i := rfl
@[simp] theorem State.advance_pc (s : State) : s.advance.pc = s.pc + 2 := rfl
@[simp] theorem State.advance_sp (s : State) : s.advance.sp = s.sp := rfl
@[simp] theorem State.advance_stack (s : State) : s.advance.stack = s.stack := rfl
@[simp] theorem State.advance_dt (s : State) : s.advance.dt = s.dt := rfl
@[simp] theorem State.advance_st (s : State) : s.advance.st = s.st := rfl
@[simp] theorem State.advance_fb (s : State) : s.advance.fb = s.fb := rfl
@[simp] theorem State.advance_key (s : State) : s.advance.key = s.key := rfl
@[simp] theorem State.advance_mem (s : State) : s.advance.mem = s.mem := rfl
@[simp] theorem State.advance_wait (s : State) : s.advance.wait = s.wait := rfl
@[simp] theorem State.advance_waitX (s : State) : s.advance.waitX = s.waitX := rfl
@[simp] theorem State.advance_keyPrev (s : State) : s.advance.keyPrev = s.keyPrev := rfl
@[simp] theorem State.advance_fault (s : State) : s.advance.fault = s.fault := rfl
@[simp] theorem State.advance_faultPc (s : State) : s.advance.faultPc = s.faultPc := rfl
@[simp] theorem State.advance_faultOp (s : State) : s.advance.faultOp = s.faultOp := rfl
@[simp] theorem State.advance_draws (s : State) : s.advance.draws = s.draws := rfl

/-! ### a skip -/

@[simp] theorem State.skipIf_v (s : State) (c : Bool) : (s.skipIf c).v = s.v := rfl
@[simp] theorem State.skipIf_i (s : State) (c : Bool) : (s.skipIf c).i = s.i := rfl
@[simp] theorem State.skipIf_pc (s : State) (c : Bool) : (s.skipIf c).pc = if c then s.pc + 4 else s.pc + 2 := rfl
@[simp] theorem State.skipIf_sp (s : State) (c : Bool) : (s.skipIf c).sp = s.sp := rfl
@[simp] theorem State.skipIf_stack (s : State) (c : Bool) : (s.skipIf c).stack = s.stack := rfl
@[simp] theorem State.skipIf_dt (s : State) (c : Bool) : (s.skipIf c).dt = s.dt := rfl
@[simp] theorem State.skipIf_st (s : State) (c : Bool) : (s.skipIf c).st = s.st := rfl
@[simp] theorem State.skipIf_fb (s : State) (c : Bool) : (s.skipIf c).fb = s.fb := rfl
@[simp] theorem State.skipIf_key (s : State) (c : Bool) : (s.skipIf c).key = s.key := rfl
@[simp] theorem State.skipIf_mem (s : State) (c : Bool) : (s.skipIf c).mem = s.mem := rfl
@[simp] theorem State.skipIf_wait (s : State) (c : Bool) : (s.skipIf c).wait = s.wait := rfl
@[simp] theorem State.skipIf_waitX (s : State) (c : Bool) : (s.skipIf c).waitX = s.waitX := rfl
@[simp] theorem State.skipIf_keyPrev (s : State) (c : Bool) : (s.skipIf c).keyPrev = s.keyPrev := rfl
@[simp] theorem State.skipIf_fault (s : State) (c : Bool) : (s.skipIf c).fault = s.fault := rfl
@[simp] theorem State.skipIf_faultPc (s : State) (c : Bool) : (s.skipIf c).faultPc = s.faultPc := rfl
@[simp] theorem State.skipIf_faultOp (s : State) (c : Bool) : (s.skipIf c).faultOp = s.faultOp := rfl
@[simp] theorem State.skipIf_draws (s : State) (c : Bool) : (s.skipIf c).draws = s.draws := rfl

/-! ### taking a fatal condition -/

@[simp] theorem State.raise_v (s : State) (f : Fatal) (op : Word) : (s.raise f op).v = s.v := rfl
@[simp] theorem State.raise_i (s : State) (f : Fatal) (op : Word) : (s.raise f op).i = s.i := rfl
@[simp] theorem State.raise_pc (s : State) (f : Fatal) (op : Word) : (s.raise f op).pc = s.pc := rfl
@[simp] theorem State.raise_sp (s : State) (f : Fatal) (op : Word) : (s.raise f op).sp = s.sp := rfl
@[simp] theorem State.raise_stack (s : State) (f : Fatal) (op : Word) : (s.raise f op).stack = s.stack := rfl
@[simp] theorem State.raise_dt (s : State) (f : Fatal) (op : Word) : (s.raise f op).dt = s.dt := rfl
@[simp] theorem State.raise_st (s : State) (f : Fatal) (op : Word) : (s.raise f op).st = s.st := rfl
@[simp] theorem State.raise_fb (s : State) (f : Fatal) (op : Word) : (s.raise f op).fb = s.fb := rfl
@[simp] theorem State.raise_key (s : State) (f : Fatal) (op : Word) : (s.raise f op).key = s.key := rfl
@[simp] theorem State.raise_mem (s : State) (f : Fatal) (op : Word) : (s.raise f op).mem = s.mem := rfl
@[simp] theorem State.raise_wait (s : State) (f : Fatal) (op : Word) : (s.raise f op).wait = s.wait := rfl
@[simp] theorem State.raise_waitX (s : State) (f : Fatal) (op : Word) : (s.raise f op).waitX = s.waitX := rfl
@[simp] theorem State.raise_keyPrev (s : State) (f : Fatal) (op : Word) : (s.raise f op).keyPrev = s.keyPrev := rfl
@[simp] theorem State.raise_fault (s : State) (f : Fatal) (op : Word) : (s.raise f op).fault = fatalCode f := rfl
@[simp] theorem State.raise_faultPc (s : State) (f : Fatal) (op : Word) : (s.raise f op).faultPc = s.pc := rfl
@[simp] theorem State.raise_faultOp (s : State) (f : Fatal) (op : Word) : (s.raise f op).faultOp = op := rfl
@[simp] theorem State.raise_draws (s : State) (f : Fatal) (op : Word) : (s.raise f op).draws = s.draws := rfl

/-! ### the tick -/

@[simp] theorem State.tickTimers_v (s : State) : s.tickTimers.v = s.v := rfl
@[simp] theorem State.tickTimers_i (s : State) : s.tickTimers.i = s.i := rfl
@[simp] theorem State.tickTimers_pc (s : State) : s.tickTimers.pc = s.pc := rfl
@[simp] theorem State.tickTimers_sp (s : State) : s.tickTimers.sp = s.sp := rfl
@[simp] theorem State.tickTimers_stack (s : State) : s.tickTimers.stack = s.stack := rfl
@[simp] theorem State.tickTimers_dt (s : State) : s.tickTimers.dt = tickTimer s.dt := rfl
@[simp] theorem State.tickTimers_st (s : State) : s.tickTimers.st = tickTimer s.st := rfl
@[simp] theorem State.tickTimers_fb (s : State) : s.tickTimers.fb = s.fb := rfl
@[simp] theorem State.tickTimers_key (s : State) : s.tickTimers.key = s.key := rfl
@[simp] theorem State.tickTimers_mem (s : State) : s.tickTimers.mem = s.mem := rfl
@[simp] theorem State.tickTimers_wait (s : State) : s.tickTimers.wait = s.wait := rfl
@[simp] theorem State.tickTimers_waitX (s : State) : s.tickTimers.waitX = s.waitX := rfl
@[simp] theorem State.tickTimers_keyPrev (s : State) : s.tickTimers.keyPrev = s.keyPrev := rfl
@[simp] theorem State.tickTimers_fault (s : State) : s.tickTimers.fault = s.fault := rfl
@[simp] theorem State.tickTimers_faultPc (s : State) : s.tickTimers.faultPc = s.faultPc := rfl
@[simp] theorem State.tickTimers_faultOp (s : State) : s.tickTimers.faultOp = s.faultOp := rfl
@[simp] theorem State.tickTimers_draws (s : State) : s.tickTimers.draws = s.draws := rfl

/-! ### the key write -/

@[simp] theorem State.setKey_v (s : State) (k : Nat) (p : Bool) : (s.setKey k p).v = s.v := rfl
@[simp] theorem State.setKey_i (s : State) (k : Nat) (p : Bool) : (s.setKey k p).i = s.i := rfl
@[simp] theorem State.setKey_pc (s : State) (k : Nat) (p : Bool) : (s.setKey k p).pc = s.pc := rfl
@[simp] theorem State.setKey_sp (s : State) (k : Nat) (p : Bool) : (s.setKey k p).sp = s.sp := rfl
@[simp] theorem State.setKey_stack (s : State) (k : Nat) (p : Bool) : (s.setKey k p).stack = s.stack := rfl
@[simp] theorem State.setKey_dt (s : State) (k : Nat) (p : Bool) : (s.setKey k p).dt = s.dt := rfl
@[simp] theorem State.setKey_st (s : State) (k : Nat) (p : Bool) : (s.setKey k p).st = s.st := rfl
@[simp] theorem State.setKey_fb (s : State) (k : Nat) (p : Bool) : (s.setKey k p).fb = s.fb := rfl
@[simp] theorem State.setKey_key (s : State) (k : Nat) (p : Bool) : (s.setKey k p).key = s.key.setIfInBounds k p := rfl
@[simp] theorem State.setKey_mem (s : State) (k : Nat) (p : Bool) : (s.setKey k p).mem = s.mem := rfl
@[simp] theorem State.setKey_wait (s : State) (k : Nat) (p : Bool) : (s.setKey k p).wait = s.wait := rfl
@[simp] theorem State.setKey_waitX (s : State) (k : Nat) (p : Bool) : (s.setKey k p).waitX = s.waitX := rfl
@[simp] theorem State.setKey_keyPrev (s : State) (k : Nat) (p : Bool) : (s.setKey k p).keyPrev = s.keyPrev := rfl
@[simp] theorem State.setKey_fault (s : State) (k : Nat) (p : Bool) : (s.setKey k p).fault = s.fault := rfl
@[simp] theorem State.setKey_faultPc (s : State) (k : Nat) (p : Bool) : (s.setKey k p).faultPc = s.faultPc := rfl
@[simp] theorem State.setKey_faultOp (s : State) (k : Nat) (p : Bool) : (s.setKey k p).faultOp = s.faultOp := rfl
@[simp] theorem State.setKey_draws (s : State) (k : Nat) (p : Bool) : (s.setKey k p).draws = s.draws := rfl

/-! ### the load -/

@[simp] theorem State.loadImage_v (s : State) (image : List Byte) : (s.loadImage image).v = s.v := rfl
@[simp] theorem State.loadImage_i (s : State) (image : List Byte) : (s.loadImage image).i = s.i := rfl
@[simp] theorem State.loadImage_pc (s : State) (image : List Byte) : (s.loadImage image).pc = s.pc := rfl
@[simp] theorem State.loadImage_sp (s : State) (image : List Byte) : (s.loadImage image).sp = s.sp := rfl
@[simp] theorem State.loadImage_stack (s : State) (image : List Byte) : (s.loadImage image).stack = s.stack := rfl
@[simp] theorem State.loadImage_dt (s : State) (image : List Byte) : (s.loadImage image).dt = s.dt := rfl
@[simp] theorem State.loadImage_st (s : State) (image : List Byte) : (s.loadImage image).st = s.st := rfl
@[simp] theorem State.loadImage_fb (s : State) (image : List Byte) : (s.loadImage image).fb = s.fb := rfl
@[simp] theorem State.loadImage_key (s : State) (image : List Byte) : (s.loadImage image).key = s.key := rfl
@[simp] theorem State.loadImage_mem (s : State) (image : List Byte) : (s.loadImage image).mem = s.mem.writeBytes progBase image := rfl
@[simp] theorem State.loadImage_wait (s : State) (image : List Byte) : (s.loadImage image).wait = s.wait := rfl
@[simp] theorem State.loadImage_waitX (s : State) (image : List Byte) : (s.loadImage image).waitX = s.waitX := rfl
@[simp] theorem State.loadImage_keyPrev (s : State) (image : List Byte) : (s.loadImage image).keyPrev = s.keyPrev := rfl
@[simp] theorem State.loadImage_fault (s : State) (image : List Byte) : (s.loadImage image).fault = s.fault := rfl
@[simp] theorem State.loadImage_faultPc (s : State) (image : List Byte) : (s.loadImage image).faultPc = s.faultPc := rfl
@[simp] theorem State.loadImage_faultOp (s : State) (image : List Byte) : (s.loadImage image).faultOp = s.faultOp := rfl
@[simp] theorem State.loadImage_draws (s : State) (image : List Byte) : (s.loadImage image).draws = s.draws := rfl

/-! ### Registers -/

@[simp] theorem State.reg_setReg_self (s : State) (x : Reg) (b : Byte) : (s.setReg x b).reg x = b := by
  simp [State.reg]

@[simp] theorem State.reg_setReg_ne (s : State) (x r : Reg) (b : Byte) (h : r ≠ x) :
    (s.setReg x b).reg r = s.reg r := by
  have h' : (x : Nat) ≠ r := fun e => h (Fin.ext e.symm)
  simp [State.reg, Vector.getElem_set_ne _ _ h']

/-- What a register reads after one is written. -/
theorem State.reg_setReg (s : State) (x r : Reg) (b : Byte) :
    (s.setReg x b).reg r = if r = x then b else s.reg r := by
  by_cases h : r = x
  · subst h; simp
  · simp [h]

/-- What a register reads after a result and a flag are written: the flag in VF, whatever x is (R162). -/
theorem State.reg_setResultFlag (s : State) (x r : Reg) (res flag : Byte) :
    (s.setResultFlag x res flag).reg r = if r = Reg.vf then flag else if r = x then res else s.reg r := by
  simp [State.setResultFlag, State.reg_setReg]

@[simp] theorem State.reg_advance (s : State) (r : Reg) : s.advance.reg r = s.reg r := rfl

@[simp] theorem State.reg_skipIf (s : State) (c : Bool) (r : Reg) : (s.skipIf c).reg r = s.reg r := rfl

@[simp] theorem State.reg_raise (s : State) (f : Fatal) (op : Word) (r : Reg) : (s.raise f op).reg r = s.reg r := rfl

/-- Taking a fatal condition keeps all but the fault record (60_exceptions.md R256). -/
theorem State.raise_frame (s : State) (f : Fatal) (op : Word) : UnchangedBut [.fault] s (s.raise f op) := by
  intro p hp
  cases p <;> first | exact rfl | exact ⟨rfl, fun _ => rfl⟩ | exact fun _ => rfl | exact ⟨rfl, rfl, rfl⟩ | simp at hp

/-- No fatal condition has the code of "none". -/
theorem fatalCode_ne_zero (f : Fatal) : fatalCode f ≠ 0 := by cases f <;> decide

/-- Taking a fatal condition halts the core (60_exceptions.md R257). -/
theorem State.raise_halted (s : State) (f : Fatal) (op : Word) : (s.raise f op).Halted := fatalCode_ne_zero f

end Sys2Proof.Machine
end

