-- ==== Sys2Proof/Laws/Ops.lean ====
section
/-! SUPPORT. One lemma per shared operation that says what it can do. -/

namespace Sys2Proof.Machine

/-! ### Accesses through I -/

theorem spanFits_iff (base count : Nat) : spanFits base count = true ↔ count = 0 ∨ base + count ≤ memSize := by
  simp [spanFits]

/-- An access through I completes if its span fits. -/
theorem State.ifSpanFits_fits (s : State) (i : Instr) (count : Nat) (t : State) (h : spanFits s.i.toNat count = true) :
    s.ifSpanFits i count t = .next t := by simp [State.ifSpanFits, h]

/-- An access through I raises OutOfBounds if its span does not fit. -/
theorem State.ifSpanFits_raises (s : State) (i : Instr) (count : Nat) (t : State)
    (h : spanFits s.i.toNat count = false) :
    s.ifSpanFits i count t = .next (s.raise .outOfBounds (encode i)) := by simp [State.ifSpanFits, h]

/-- All an access through I can do. -/
theorem State.ifSpanFits_cases (s : State) (i : Instr) (count : Nat) (t u : State)
    (h : s.ifSpanFits i count t = .next u) :
    (spanFits s.i.toNat count = true ∧ u = t) ∨
      (spanFits s.i.toNat count = false ∧ u = s.raise .outOfBounds (encode i)) := by
  unfold State.ifSpanFits at h
  cases hf : spanFits s.i.toNat count <;> rw [hf] at h <;> cases h
  · exact .inr ⟨rfl, rfl⟩
  · exact .inl ⟨rfl, rfl⟩

/-! ### Fetch -/

theorem fetchWord_none_iff (m : Memory) (pc : Nat) : fetchWord m pc = none ↔ pc ≥ 0xFFF := by
  unfold fetchWord memSize
  split <;> simp <;> omega

theorem fetchWord_some_iff (m : Memory) (pc : Nat) (w : Word) :
    fetchWord m pc = some w ↔ pc ≤ 0xFFE ∧ w = wordOfBytes (m.read pc) (m.read (pc + 1)) := by
  unfold fetchWord memSize
  split
  · simp only [Option.some.injEq]
    exact ⟨fun h => ⟨by omega, h.symm⟩, fun h => h.2.symm⟩
  · simp; omega

/-! ### Register block -/

/-- What a register holds after a block load: a byte of memory if the block reaches it, its old value if not. -/
theorem loadBlock_getElem (m : Memory) (base : Nat) (v : Vector Byte 16) (count : Nat) (k : Reg) :
    (loadBlock m base v count)[k] = if k.val < count then m.read (base + k.val) else v[k] := by
  simp [loadBlock]

/-! ### Shift source -/

/-- With y = x the shift source is V[x] under both values of SHIFT_USES_VY (41_arithmetic_logic.md R165). -/
@[simp] theorem shiftSource_self (s : State) (x : Reg) : shiftSource s x x = s.reg x := by
  simp [shiftSource, shiftOperand]

/-! ### Framebuffer -/

/-- A pixel after one pixel is inverted, coordinates taken modulo 64 and 32. -/
theorem pixel_flipPixel (fb : Framebuffer) (x y x' y' : Nat) :
    pixel (flipPixel fb x y) x' y' =
      if x' % 64 = x % 64 ∧ y' % 32 = y % 32 then !pixel fb x' y' else pixel fb x' y' := by
  unfold pixel flipPixel
  by_cases hy : y' % 32 = y % 32
  · by_cases hx : x' % 64 = x % 64
    · simp [hx, hy, pixel]
    · have hx' : x % 64 ≠ x' % 64 := Ne.symm hx
      simp [hy, hx, Vector.getElem_set_ne, hx']
  · have hy' : y % 32 ≠ y' % 32 := Ne.symm hy
    simp [hy, Vector.getElem_set_ne, hy']

/-- Two framebuffers that agree on every pixel are equal. -/
theorem Framebuffer.ext_pixel (a b : Framebuffer) (h : ∀ x y, x < 64 → y < 32 → pixel a x y = pixel b x y) : a = b := by
  ext y hy x hx
  have := h x y hx hy
  simpa [pixel, Nat.mod_eq_of_lt hx, Nat.mod_eq_of_lt hy] using this

/-- The first row of a sprite, then the others. -/
theorem drawRows_cons (c : Canvas) (x0 y : Nat) (b : Byte) (bs : List Byte) :
    drawRows c x0 y (b :: bs) = drawRows (drawRow c b x0 y) x0 (y + 1) bs := rfl

/-! ### Key wait -/

theorem mem_keysInOrder (k : Reg) : k ∈ keysInOrder := by revert k; decide

theorem keysInOrder_sorted : keysInOrder.Pairwise (· < ·) := by decide

/-- No key went down since the last sample. -/
theorem newKey_none_iff (now prev : Keys) :
    newKey now prev = none ↔ ∀ k : Reg, ¬ (now[k] = true ∧ prev[k] = false) := by
  simp only [newKey, List.find?_eq_none, Bool.and_eq_true, Bool.not_eq_true']
  exact ⟨fun h k => h k (mem_keysInOrder k), fun h k _ => h k⟩

/-- The key the poll takes went down since the last sample, and every such key is no lower. -/
theorem newKey_some (now prev : Keys) (k : Reg) (h : newKey now prev = some k) :
    now[k] = true ∧ prev[k] = false ∧ ∀ j : Reg, now[j] = true → prev[j] = false → k ≤ j := by
  unfold newKey at h
  have hk := List.find?_some h
  simp only [Bool.and_eq_true, Bool.not_eq_true'] at hk
  refine ⟨hk.1, hk.2, fun j hj hj' => ?_⟩
  rw [List.find?_eq_some_iff_append] at h
  obtain ⟨_, as, bs, hab, has⟩ := h
  by_contra hlt
  have hlt : j < k := lt_of_not_ge hlt
  have hm : j ∈ as ++ k :: bs := hab ▸ mem_keysInOrder j
  have hs : (as ++ k :: bs).Pairwise (· < ·) := hab ▸ keysInOrder_sorted
  rw [List.mem_append, List.mem_cons] at hm
  rcases hm with hm | rfl | hm
  · have := has j hm
    simp [hj, hj'] at this
  · exact lt_irrefl _ hlt
  · have := (List.pairwise_cons.mp (List.pairwise_append.mp hs).2.1).1 j hm
    exact absurd this (not_lt_of_gt hlt)

/-- All the poll can do (45_input.md R234). -/
theorem State.keyWaitPoll_cases (s : State) :
    (∃ k, newKey s.key s.keyPrev = some k ∧
      s.keyWaitPoll = { s.setReg s.waitX (BitVec.ofNat 8 k.val) with wait := false, pc := s.pc + 2 }) ∨
    (newKey s.key s.keyPrev = none ∧ s.keyWaitPoll = { s with keyPrev := s.key }) := by
  unfold State.keyWaitPoll
  cases h : newKey s.key s.keyPrev with
  | none => exact .inr ⟨rfl, rfl⟩
  | some k => exact .inl ⟨k, rfl, rfl⟩

end Sys2Proof.Machine
end

