-- ==== Sys2Proof/Laws/Frames.lean ====
section
/-! SUPPORT. What the shared operations leave unchanged, in the terms of Safety, and the flags as numbers. -/

namespace Sys2Proof.Machine

/-! ### Building and using a frame -/

/-- A frame is a part-by-part check; the parts named need none. -/
theorem UnchangedBut.of_parts (parts : List Part) (s t : State)
    (hv : .v ∉ parts → ∀ r : Reg, t.reg r = s.reg r) (hi : .i ∉ parts → t.i = s.i) (hpc : .pc ∉ parts → t.pc = s.pc)
    (hsp : .sp ∉ parts → t.sp = s.sp) (hstack : .stack ∉ parts → t.stack = s.stack) (hdt : .dt ∉ parts → t.dt = s.dt)
    (hst : .st ∉ parts → t.st = s.st) (hfb : .fb ∉ parts → t.fb = s.fb) (hkey : .key ∉ parts → t.key = s.key)
    (hmem : .mem ∉ parts → t.mem = s.mem)
    (hwait : .wait ∉ parts → t.wait = s.wait ∧ t.waitX = s.waitX ∧ t.keyPrev = s.keyPrev)
    (hfault : .fault ∉ parts → t.fault = s.fault ∧ t.faultPc = s.faultPc ∧ t.faultOp = s.faultOp)
    (hdraws : .draws ∉ parts → t.draws = s.draws) : UnchangedBut parts s t := by
  intro p hp
  cases p
  case v => exact hv hp
  case i => exact hi hp
  case pc => exact hpc hp
  case sp => exact hsp hp
  case stack => exact hstack hp
  case dt => exact hdt hp
  case st => exact hst hp
  case fb => exact hfb hp
  case key => exact hkey hp
  case mem => exact ⟨hmem hp, fun a => by rw [hmem hp]⟩
  case wait => exact hwait hp
  case fault => exact hfault hp
  case draws => exact hdraws hp

theorem SamePart.refl (s : State) (p : Part) : SamePart s s p := by cases p <;> simp [SamePart]

theorem UnchangedBut.refl (parts : List Part) (s : State) : UnchangedBut parts s s := fun p _ => .refl s p

theorem SamePart.trans {s t u : State} {p : Part} (h : SamePart s t p) (h' : SamePart t u p) : SamePart s u p := by
  cases p <;> simp only [SamePart] at *
  case v => exact fun r => (h' r).trans (h r)
  case mem => exact ⟨h'.1.trans h.1, fun a => (h'.2 a).trans (h.2 a)⟩
  case wait => exact ⟨h'.1.trans h.1, h'.2.1.trans h.2.1, h'.2.2.trans h.2.2⟩
  case fault => exact ⟨h'.1.trans h.1, h'.2.1.trans h.2.1, h'.2.2.trans h.2.2⟩
  all_goals exact h'.trans h

/-- Frames compose. -/
theorem UnchangedBut.trans {parts : List Part} {s t u : State} (h : UnchangedBut parts s t)
    (h' : UnchangedBut parts t u) : UnchangedBut parts s u := fun p hp => (h p hp).trans (h' p hp)

/-- A frame may name more. -/
theorem UnchangedBut.mono {parts parts' : List Part} {s t : State} (h : UnchangedBut parts s t) (hp : parts ⊆ parts') :
    UnchangedBut parts' s t := fun p hq => h p fun hm => hq (hp hm)

/-! ### The shared operations -/

theorem State.skipIf_onlyPc (s : State) (c : Bool) :
    OnlyPc s (s.skipIf c) (if c then s.pc + 4 else s.pc + 2) := by
  refine ⟨rfl, .of_parts _ _ _ ?_ ?_ ?_ ?_ ?_ ?_ ?_ ?_ ?_ ?_ ?_ ?_ ?_⟩ <;> simp

theorem State.setReg_advance_onlyReg (s : State) (x : Reg) (b : Byte) : OnlyReg s (s.setReg x b).advance x b := by
  refine ⟨by simp, by simp, fun r hr => ?_, .of_parts _ _ _ ?_ ?_ ?_ ?_ ?_ ?_ ?_ ?_ ?_ ?_ ?_ ?_ ?_⟩ <;> simp_all

theorem State.setResultFlag_advance_regThenFlag (s : State) (x : Reg) (res flag : Byte) :
    RegThenFlag s (s.setResultFlag x res flag).advance x res.toNat flag.toNat := by
  refine ⟨fun h => ?_, ?_, by simp [State.setResultFlag], fun r hr => ?_,
    .of_parts _ _ _ ?_ ?_ ?_ ?_ ?_ ?_ ?_ ?_ ?_ ?_ ?_ ?_ ?_⟩ <;>
  simp_all [State.setResultFlag]

/-- Taking a fatal condition records it and nothing else. -/
theorem State.raise_recorded (s : State) (f : Fatal) (op : Word) :
    FaultRecorded s (s.raise f op) (fatalCode f).toNat op.toNat := ⟨rfl, rfl, rfl, s.raise_frame f op⟩

/-! ### Flags as numbers -/

theorem flagByte_toNat (c : Bool) : (flagByte c).toNat = if c then 1 else 0 := by cases c <;> rfl

theorem shrFlag_toNat (src : Byte) : (shrFlag src).toNat = src.toNat % 2 := by
  rw [shrFlag, flagByte_toNat, BitVec.getLsbD, Nat.testBit_zero]
  rcases Nat.mod_two_eq_zero_or_one src.toNat with h | h <;> simp [h]

theorem shlFlag_toNat (src : Byte) : (shlFlag src).toNat = src.toNat / 128 := by
  rw [shlFlag, flagByte_toNat, BitVec.getLsbD, Nat.testBit_eq_decide_div_mod_eq]
  have := src.isLt
  split <;> simp_all <;> omega

end Sys2Proof.Machine
end

