-- ==== Sys2Proof/Laws/PerInstr.lean ====
section
/-! SUPPORT. Per instruction: the word the encoder gives it matches its row of 30_encoding.md R96, whatever its
operands. -/

namespace Sys2Proof

/-- A bitwise AND of appended pairs is taken part by part. -/
theorem append_and {u v : Nat} (a c : BitVec u) (b d : BitVec v) :
    (a ++ b) &&& (c ++ d) = (a &&& c) ++ (b &&& d) := by
  ext i h
  simp only [BitVec.getElem_and, BitVec.getElem_append]
  split <;> simp

theorem formatNNN_and (f g : Nibble) (a b : Addr12) :
    formatNNN f a &&& formatNNN g b = formatNNN (f &&& g) (a &&& b) := append_and f g a b

theorem formatXKK_and (f g : Nibble) (x y : Reg) (a b : Byte) :
    formatXKK f x a &&& formatXKK g y b =
      (f &&& g) ++ ((BitVec.ofFin x : Nibble) &&& (BitVec.ofFin y : Nibble)) ++ (a &&& b) :=
  (append_and (f ++ (BitVec.ofFin x : Nibble)) (g ++ (BitVec.ofFin y : Nibble)) a b).trans
    (congrArg (· ++ (a &&& b)) (append_and f g _ _))

theorem and_ones_nibble (b : Nibble) : b &&& 15#4 = b := BitVec.and_allOnes

theorem and_ones_byte (b : Byte) : b &&& 255#8 = b := BitVec.and_allOnes

/-- A word of format NNN under the mask F000 keeps its family. -/
theorem formatNNN_family (f : Nibble) (nnn : Addr12) : formatNNN f nnn &&& 0xF000 = formatNNN f 0 := by
  rw [show (0xF000 : Word) = formatNNN 0xF 0 from rfl, formatNNN_and]
  congr 1
  · exact and_ones_nibble f
  · simp

/-- A word of format XKK under the mask F000 keeps its family. -/
theorem formatXKK_family (f : Nibble) (x : Reg) (kk : Byte) : formatXKK f x kk &&& 0xF000 = formatXKK f 0 0 := by
  rw [show (0xF000 : Word) = formatXKK 0xF 0 0x00 from rfl, formatXKK_and]
  simp [formatXKK, and_ones_nibble]

/-- A word of format X under the mask F0FF keeps its family and low byte. -/
theorem formatXKK_low (f : Nibble) (x : Reg) (kk : Byte) : formatXKK f x kk &&& 0xF0FF = formatXKK f 0 kk := by
  rw [show (0xF0FF : Word) = formatXKK 0xF 0 0xFF from rfl, formatXKK_and]
  simp [formatXKK, and_ones_nibble, and_ones_byte]

/-- A word of format XYN under the mask F000 keeps its family. -/
theorem formatXYN_family (f : Nibble) (x y : Reg) (n : Nibble) : formatXYN f x y n &&& 0xF000 = formatXKK f 0 0 := by
  rw [formatXYN_eq, formatXKK_family]

/-- A word of format XY under the mask F00F keeps its family and low nibble. -/
theorem formatXYN_low (f : Nibble) (x y : Reg) (n : Nibble) : formatXYN f x y n &&& 0xF00F = formatXYN f 0 0 n := by
  rw [formatXYN_eq, show (0xF00F : Word) = formatXKK 0xF 0 ((0x0 : Nibble) ++ (0xF : Nibble)) from rfl, formatXKK_and,
    append_and, formatXYN_eq]
  simp [formatXKK, and_ones_nibble]

/-- The encoding of an instruction matches its row of 30_encoding.md R96. -/
def Laws.EncodesToRow.Statement (i : Instr) : Prop := i.row.matchesWord (encode i) = true

namespace Laws.EncodesToRow

theorem of_masked (i : Instr) (h : encode i &&& i.row.mask = i.row.value) : Statement i := by
  simp [Statement, Row.matchesWord, h]

theorem cls : Statement (.cls) := rfl

theorem ret : Statement (.ret) := rfl

theorem jp (nnn : Addr12) : Statement (.jp nnn) := of_masked _ (formatNNN_family 0x1 nnn)

theorem call (nnn : Addr12) : Statement (.call nnn) := of_masked _ (formatNNN_family 0x2 nnn)

theorem seByte (x : Reg) (kk : Byte) : Statement (.seByte x kk) := of_masked _ (formatXKK_family 0x3 x kk)

theorem sneByte (x : Reg) (kk : Byte) : Statement (.sneByte x kk) := of_masked _ (formatXKK_family 0x4 x kk)

theorem seReg (x y : Reg) : Statement (.seReg x y) := of_masked _ (formatXYN_low 0x5 x y 0x0)

theorem ldByte (x : Reg) (kk : Byte) : Statement (.ldByte x kk) := of_masked _ (formatXKK_family 0x6 x kk)

theorem addByte (x : Reg) (kk : Byte) : Statement (.addByte x kk) := of_masked _ (formatXKK_family 0x7 x kk)

theorem ldReg (x y : Reg) : Statement (.ldReg x y) := of_masked _ (formatXYN_low 0x8 x y 0x0)

theorem orReg (x y : Reg) : Statement (.orReg x y) := of_masked _ (formatXYN_low 0x8 x y 0x1)

theorem andReg (x y : Reg) : Statement (.andReg x y) := of_masked _ (formatXYN_low 0x8 x y 0x2)

theorem xorReg (x y : Reg) : Statement (.xorReg x y) := of_masked _ (formatXYN_low 0x8 x y 0x3)

theorem addReg (x y : Reg) : Statement (.addReg x y) := of_masked _ (formatXYN_low 0x8 x y 0x4)

theorem subReg (x y : Reg) : Statement (.subReg x y) := of_masked _ (formatXYN_low 0x8 x y 0x5)

theorem shr (x y : Reg) : Statement (.shr x y) := of_masked _ (formatXYN_low 0x8 x y 0x6)

theorem subn (x y : Reg) : Statement (.subn x y) := of_masked _ (formatXYN_low 0x8 x y 0x7)

theorem shl (x y : Reg) : Statement (.shl x y) := of_masked _ (formatXYN_low 0x8 x y 0xE)

theorem sneReg (x y : Reg) : Statement (.sneReg x y) := of_masked _ (formatXYN_low 0x9 x y 0x0)

theorem ldI (nnn : Addr12) : Statement (.ldI nnn) := of_masked _ (formatNNN_family 0xA nnn)

theorem jpV0 (nnn : Addr12) : Statement (.jpV0 nnn) := of_masked _ (formatNNN_family 0xB nnn)

theorem rnd (x : Reg) (kk : Byte) : Statement (.rnd x kk) := of_masked _ (formatXKK_family 0xC x kk)

theorem drw (x y : Reg) (n : Nibble) : Statement (.drw x y n) := of_masked _ (formatXYN_family 0xD x y n)

theorem skp (x : Reg) : Statement (.skp x) := of_masked _ (formatXKK_low 0xE x 0x9E)

theorem sknp (x : Reg) : Statement (.sknp x) := of_masked _ (formatXKK_low 0xE x 0xA1)

theorem ldVxDt (x : Reg) : Statement (.ldVxDt x) := of_masked _ (formatXKK_low 0xF x 0x07)

theorem ldVxK (x : Reg) : Statement (.ldVxK x) := of_masked _ (formatXKK_low 0xF x 0x0A)

theorem ldDtVx (x : Reg) : Statement (.ldDtVx x) := of_masked _ (formatXKK_low 0xF x 0x15)

theorem ldStVx (x : Reg) : Statement (.ldStVx x) := of_masked _ (formatXKK_low 0xF x 0x18)

theorem addI (x : Reg) : Statement (.addI x) := of_masked _ (formatXKK_low 0xF x 0x1E)

theorem ldF (x : Reg) : Statement (.ldF x) := of_masked _ (formatXKK_low 0xF x 0x29)

theorem ldB (x : Reg) : Statement (.ldB x) := of_masked _ (formatXKK_low 0xF x 0x33)

theorem storeRegs (x : Reg) : Statement (.storeRegs x) := of_masked _ (formatXKK_low 0xF x 0x55)

theorem loadRegs (x : Reg) : Statement (.loadRegs x) := of_masked _ (formatXKK_low 0xF x 0x65)

end Laws.EncodesToRow

end Sys2Proof
end

