-- ==== Sys2Proof/Laws/Step.lean ====
section
/-! SUPPORT. The step cycle (30_encoding.md R90), its cases, and all the exits of the meanings. -/

namespace Sys2Proof.Machine

theorem step_halted (s : State) (h : s.Halted) : step s = .next s := if_pos h

theorem step_waiting (s : State) (h : s.fault = 0) (hw : s.wait = true) : step s = .next s.keyWaitPoll := by
  simp [step, h, hw]

theorem step_running (s : State) (h : s.Running) : step s = fetchDecodeExecute s := by simp [step, h.1, h.2]

/-- All a fetch, decode and execute can do. -/
theorem fetchDecodeExecute_cases (s : State) :
    (s.pc.toNat ≥ 0xFFF ∧ fetchDecodeExecute s = .next (s.raise .outOfBounds 0x0000)) ∨
    (∃ w e, fetchWord s.mem s.pc.toNat = some w ∧ decodeWord w = .error e ∧
      fetchDecodeExecute s = .next (s.raise .unknownInstruction w)) ∨
    (∃ w i, fetchWord s.mem s.pc.toNat = some w ∧ decodeWord w = .ok i ∧ fetchDecodeExecute s = exec i s) := by
  unfold fetchDecodeExecute
  cases hf : fetchWord s.mem s.pc.toNat with
  | none => exact .inl ⟨(fetchWord_none_iff _ _).mp hf, rfl⟩
  | some w =>
    cases hd : decodeWord w with
    | error e => exact .inr (.inl ⟨w, e, rfl, hd, by simp [hd]⟩)
    | ok i => exact .inr (.inr ⟨w, i, rfl, hd, by simp [hd]⟩)

/-- All a step that answers a next state can have done. -/
theorem step_next_cases (s t : State) (h : step s = .next t) :
    (s.Halted ∧ t = s) ∨
    (s.fault = 0 ∧ s.wait = true ∧ t = s.keyWaitPoll) ∨
    (s.Running ∧ s.pc.toNat ≥ 0xFFF ∧ t = s.raise .outOfBounds 0x0000) ∨
    (s.Running ∧ ∃ w e, fetchWord s.mem s.pc.toNat = some w ∧ decodeWord w = .error e ∧
      t = s.raise .unknownInstruction w) ∨
    (s.Running ∧ ∃ w i, fetchWord s.mem s.pc.toNat = some w ∧ decodeWord w = .ok i ∧ exec i s = .next t) := by
  by_cases hf : s.Halted
  · rw [step_halted s hf] at h
    cases h
    exact .inl ⟨hf, rfl⟩
  · have hf : s.fault = 0 := not_not.mp hf
    by_cases hw : s.wait = true
    · rw [step_waiting s hf hw] at h
      cases h
      exact .inr (.inl ⟨hf, hw, rfl⟩)
    · have hr : s.Running := ⟨hf, by simpa using hw⟩
      rw [step_running s hr] at h
      rcases fetchDecodeExecute_cases s with ⟨hp, e⟩ | ⟨w, er, h1, h2, e⟩ | ⟨w, i, h1, h2, e⟩
      · rw [e] at h
        cases h
        exact .inr (.inr (.inl ⟨hr, hp, rfl⟩))
      · rw [e] at h
        cases h
        exact .inr (.inr (.inr (.inl ⟨hr, w, er, h1, h2, rfl⟩)))
      · rw [e] at h
        exact .inr (.inr (.inr (.inr ⟨hr, w, i, h1, h2, h⟩)))

/-- All CALL can do that is a next state (40_control_flow.md R131). -/
theorem execCall_cases (nnn : Addr12) (s t : State) (h : execCall nnn s = .next t) :
    (∃ hs : s.sp.toNat < 16,
      t = { s with stack := s.stack.set s.sp.toNat (s.pc + 2), sp := s.sp + 1, pc := zextAddr nnn }) ∨
    (s.sp = 16 ∧ t = s.raise .stackOverflow (encode (.call nnn))) := by
  unfold execCall at h
  split at h
  · cases h; exact .inl ⟨‹_›, rfl⟩
  · split at h <;> cases h
    exact .inr ⟨‹_›, rfl⟩

/-- All RET can do that is a next state (40_control_flow.md R132). -/
theorem execRet_cases (s t : State) (h : execRet s = .next t) :
    (s.sp = 0 ∧ t = s.raise .stackUnderflow (encode .ret)) ∨
    (s.sp ≠ 0 ∧ ∃ hs : s.sp.toNat - 1 < 16, t = { s with sp := s.sp - 1, pc := s.stack[s.sp.toNat - 1] }) := by
  unfold execRet at h
  split at h
  · cases h; exact .inl ⟨‹_›, rfl⟩
  · split at h <;> cases h
    exact .inr ⟨‹_›, ‹_›, rfl⟩

end Sys2Proof.Machine
end

