-- ==== Sys2Proof/Tests/Slice0.lean ====
section
/-! SUPPORT. Tests, each expected result from the spec: words written out from 30_encoding.md R92 and R96, vectors of
95_test_vectors.md (their ids stand in the names or comments), and a witness for the hypotheses of each statement. -/

namespace Sys2Proof.Tests

open Sys2Proof.Machine

/-! ### Checks that refuse -/

theorem test_illegal_words_refused :
    [0x0000, 0x0123, 0x5001, 0x8008, 0x9001, 0xE000, 0xF002].map legalWord = List.replicate 7 false := by decide

theorem test_oversized_image_refused : imageFits (List.replicate 3585 0) = false := by
  simp only [imageFits, List.length_replicate]; decide

theorem test_key_index_16_refused : keyIndexOk 16 = false := by decide

theorem test_noncanonical_memory_refused :
    Memory.wf [(0x300, 0)] = false ∧ Memory.wf [(0x301, 1), (0x300, 1)] = false ∧ Memory.wf [(4096, 1)] = false ∧
      Memory.wf [(0, 0xF0)] = false := by decide

/-! ### Decoding, each constructor by a word written out from its pattern in 30_encoding.md R96 -/

theorem test_decode_control_flow :
    decodeWord 0b0000000011101110 = .ok .ret ∧ decodeWord 0b0001101010111100 = .ok (.jp 0xABC) ∧
    decodeWord 0b0010001100000000 = .ok (.call 0x300) ∧ decodeWord 0b0011001100101010 = .ok (.seByte 3 0x2A) ∧
    decodeWord 0b0100001100101010 = .ok (.sneByte 3 0x2A) ∧ decodeWord 0b0101000100100000 = .ok (.seReg 1 2) ∧
    decodeWord 0b1001000100100000 = .ok (.sneReg 1 2) ∧ decodeWord 0b1011001100000000 = .ok (.jpV0 0x300) := by decide

theorem test_decode_arithmetic :
    decodeWord 0b0110101001111111 = .ok (.ldByte 10 0x7F) ∧ decodeWord 0b0111000100000011 = .ok (.addByte 1 3) ∧
    decodeWord 0b1000000100100000 = .ok (.ldReg 1 2) ∧ decodeWord 0b1000000100100001 = .ok (.orReg 1 2) ∧
    decodeWord 0b1000000100100010 = .ok (.andReg 1 2) ∧ decodeWord 0b1000000100100011 = .ok (.xorReg 1 2) ∧
    decodeWord 0b1000000100100100 = .ok (.addReg 1 2) ∧ decodeWord 0b1000000100100101 = .ok (.subReg 1 2) ∧
    decodeWord 0b1000000100100110 = .ok (.shr 1 2) ∧ decodeWord 0b1000000100100111 = .ok (.subn 1 2) ∧
    decodeWord 0b1000000100101110 = .ok (.shl 1 2) ∧ decodeWord 0b1100001100001111 = .ok (.rnd 3 0x0F) := by decide

theorem test_decode_memory_index :
    decodeWord 0b1010001011110000 = .ok (.ldI 0x2F0) ∧ decodeWord 0b1111001000011110 = .ok (.addI 2) ∧
    decodeWord 0b1111010000101001 = .ok (.ldF 4) ∧ decodeWord 0b1111001100110011 = .ok (.ldB 3) ∧
    decodeWord 0b1111001001010101 = .ok (.storeRegs 2) ∧ decodeWord 0b1111001001100101 = .ok (.loadRegs 2) := by decide

theorem test_decode_display_timers_input :
    decodeWord 0b0000000011100000 = .ok .cls ∧ decodeWord 0b1101000100101111 = .ok (.drw 1 2 15) ∧
    decodeWord 0b1111010100010101 = .ok (.ldDtVx 5) ∧ decodeWord 0b1111010100011000 = .ok (.ldStVx 5) ∧
    decodeWord 0b1111001100000111 = .ok (.ldVxDt 3) ∧ decodeWord 0b1110001010011110 = .ok (.skp 2) ∧
    decodeWord 0b1110001010100001 = .ok (.sknp 2) ∧ decodeWord 0b1111001100001010 = .ok (.ldVxK 3) := by decide

/-- Memory order: high byte first (20_memory.md R66), and one byte is no word. -/
theorem test_decode_bytes :
    decodeBytes [0x6A, 0x7F, 0x00] = .ok (.ldByte 10 0x7F, [0x00]) ∧ decodeBytes [0x6A] = .error .truncated ∧
    decodeTableWord 16 0x6A7F = some (.ldByte 10 0x7F) ∧ decodeTableWord 16 0x812F = none := by decide

/-! ### One step from a small state: the word stands at PC -/

/-- What a step shows, with a word at the PC of `s`. -/
def after {α : Type} (s : State) (w : Nat) (f : State → α) : Option α :=
  match step (s.withFetchWord 16 w) with
  | .next t => some (f t)
  | _ => none

/-- The reset state with some registers set. -/
def regs (rs : List (Reg × Byte)) : State := rs.foldl (fun s r => s.setReg r.1 r.2) State.reset

/-- The reset state with some pixels on. -/
def lit (ps : List (Nat × Nat)) (s : State) : State := { s with fb := ps.foldl (fun fb p => flipPixel fb p.1 p.2) s.fb }

/-- The lit pixels of a row. -/
def row (s : State) (y : Nat) : List Nat := (List.range 64).filter fun x => pixel s.fb x y

theorem test_T1_jp : after (regs []) 0x1ABC (fun t => t.pc) = some 0x0ABC := by decide

theorem test_T5_call : after (regs []) 0x2300 (fun t => (t.stack[0], t.sp, t.pc)) = some (0x0202, 1, 0x0300) := by decide

theorem test_T7_call_overflow :
    after { regs [] with sp := 16 } 0x2300 (fun t => (t.faultStatus, t.sp, t.pc)) =
      some ((3, 0x0200, 0x2300), 16, 0x0200) := by decide

theorem test_T10_ret :
    after { regs [] with sp := 16, stack := (regs []).stack.set 15 0x0ABC } 0x00EE (fun t => (t.sp, t.pc)) =
      some (15, 0x0ABC) := by decide

theorem test_T11_ret_underflow :
    after (regs []) 0x00EE (fun t => (t.faultStatus, t.sp, t.pc)) = some ((4, 0x0200, 0x00EE), 0, 0x0200) := by decide

theorem test_T12_T13_se_byte :
    after (regs [(3, 0x2A)]) 0x332A (fun t => t.pc) = some 0x0204 ∧
    after (regs [(3, 0x2B)]) 0x332A (fun t => t.pc) = some 0x0202 := by decide

theorem test_T15_T16_sne_byte :
    after (regs []) 0x432A (fun t => t.pc) = some 0x0204 ∧
    after (regs [(3, 0x2A)]) 0x432A (fun t => t.pc) = some 0x0202 := by decide

theorem test_T17_T18_se_reg :
    after (regs [(1, 7), (2, 7)]) 0x5120 (fun t => t.pc) = some 0x0204 ∧
    after (regs [(1, 7), (2, 8)]) 0x5120 (fun t => t.pc) = some 0x0202 := by decide

theorem test_T20_T21_sne_reg :
    after (regs [(1, 7), (2, 8)]) 0x9120 (fun t => t.pc) = some 0x0204 ∧
    after (regs [(1, 7), (2, 7)]) 0x9120 (fun t => t.pc) = some 0x0202 := by decide

/-- T24: a taken skip at the end of memory is no fault itself. -/
theorem test_T24_skip_past_end : after { regs [] with pc := 0xFFC } 0x3000 (fun t => (t.fault, t.pc)) =
    some (0, 0x1000) := by decide

/-- T26: PC + 1 is out of bounds. -/
theorem test_T26_fetch_out_of_bounds :
    (match step { regs [] with pc := 0xFFF, mem := [(0xFFF, 0x60)] } with
      | .next t => some (t.faultStatus, t.pc)
      | _ => none) = some ((2, 0x0FFF, 0x0000), 0x0FFF) := by decide

theorem test_T29_jp_v0 : after (regs [(0, 0xFF)]) 0xBFFF (fun t => (t.pc, t.fault)) = some (0x10FE, 0) := by decide

theorem test_T40_ld_byte : after (regs []) 0x6A7F (fun t => (t.reg 10, t.pc)) = some (0x7F, 0x0202) := by decide

theorem test_T43_add_byte :
    after (regs [(1, 0xFE), (15, 1)]) 0x7103 (fun t => (t.reg 1, t.reg 15, t.pc)) = some (1, 1, 0x0202) := by decide

theorem test_T45_add_byte_vf : after (regs [(15, 0xFF)]) 0x7F02 (fun t => t.reg 15) = some 1 := by decide

theorem test_T47_ld_reg : after (regs [(2, 0x33)]) 0x8120 (fun t => (t.reg 1, t.pc)) = some (0x33, 0x0202) := by decide

theorem test_T49_or :
    after (regs [(1, 0xF0), (2, 0x0F), (15, 1)]) 0x8121 (fun t => (t.reg 1, t.reg 15)) = some (0xFF, 1) := by decide

theorem test_T50_and :
    after (regs [(1, 0xF3), (2, 0x3F), (15, 1)]) 0x8122 (fun t => (t.reg 1, t.reg 15)) = some (0x33, 1) := by decide

theorem test_T51_xor :
    after (regs [(1, 0xFF), (2, 0x0F), (15, 1)]) 0x8123 (fun t => (t.reg 1, t.reg 15)) = some (0xF0, 1) := by decide

theorem test_E1_add :
    after (regs [(1, 0xFF), (2, 1)]) 0x8124 (fun t => (t.reg 1, t.reg 15)) = some (0, 1) ∧
    after (regs [(1, 1), (2, 1)]) 0x8124 (fun t => (t.reg 1, t.reg 15)) = some (2, 0) := by decide

/-- T57, T58: VF as destination and as operand. -/
theorem test_T57_T58_add_vf :
    after (regs [(15, 0x10), (1, 0x20)]) 0x8F14 (fun t => t.reg 15) = some 0 ∧
    after (regs [(1, 5), (15, 3)]) 0x81F4 (fun t => (t.reg 1, t.reg 15)) = some (8, 0) := by decide

theorem test_E2_sub :
    after (regs [(1, 1), (2, 2)]) 0x8125 (fun t => (t.reg 1, t.reg 15)) = some (0xFF, 0) ∧
    after (regs [(1, 2), (2, 1)]) 0x8125 (fun t => (t.reg 1, t.reg 15)) = some (1, 1) := by decide

theorem test_T61_sub_equal :
    after (regs [(1, 7), (2, 7)]) 0x8125 (fun t => (t.reg 1, t.reg 15)) = some (0, 1) := by decide

theorem test_E2_subn :
    after (regs [(1, 2), (2, 1)]) 0x8127 (fun t => (t.reg 1, t.reg 15)) = some (0xFF, 0) ∧
    after (regs [(1, 1), (2, 2)]) 0x8127 (fun t => (t.reg 1, t.reg 15)) = some (1, 1) := by decide

theorem test_T68_subn_vf : after (regs [(15, 5), (1, 3)]) 0x8F17 (fun t => t.reg 15) = some 0 := by decide

/-- T70, T78: y = x, the same under both values of SHIFT_USES_VY. -/
theorem test_T70_T78_shift_in_place :
    (∃ t, exec (.shr 1 1) (regs [(1, 0x05)]) = .next t ∧ (t.reg 1, t.reg 15) = (2, 1)) ∧
    (∃ t, exec (.shl 1 1) (regs [(1, 0x81)]) = .next t ∧ (t.reg 1, t.reg 15) = (2, 1)) := by
  simp only [exec, execShr, execShl, shiftSource_self]
  exact ⟨⟨_, rfl, by decide⟩, ⟨_, rfl, by decide⟩⟩

/-- T71: the source under each value of SHIFT_USES_VY. -/
theorem test_T71_shift_operand :
    (let src := shiftOperand false (regs [(1, 5), (2, 8)]) 1 2; (src >>> 1, shrFlag src)) = (2, 1) ∧
    (let src := shiftOperand true (regs [(1, 5), (2, 8)]) 1 2; (src >>> 1, shrFlag src)) = (4, 0) := by decide

/-- T79: the source under each value of SHIFT_USES_VY. -/
theorem test_T79_shift_operand :
    (let src := shiftOperand false (regs [(1, 0x81), (2, 1)]) 1 2; (src <<< 1, shlFlag src)) = (2, 1) ∧
    (let src := shiftOperand true (regs [(1, 0x81), (2, 1)]) 1 2; (src <<< 1, shlFlag src)) = (2, 0) := by decide

/-- T85: under the mask 0 any draw gives 0. -/
theorem test_T85_rnd (s : State) : ∃ t, exec (.rnd 3 0x00) s = .next t ∧ t.reg 3 = 0 :=
  ⟨_, rfl, by simp [State.reg, State.setReg, State.advance]⟩

theorem test_T100_ld_i : after (regs []) 0xA2F0 (fun t => (t.i, t.pc)) = some (0x02F0, 0x0202) := by decide

theorem test_T103_T104_add_i :
    after { regs [(2, 1)] with i := 0x0FFF } 0xF21E (fun t => (t.i, t.reg 15, t.fault)) = some (0x1000, 0, 0) ∧
    after { regs [(2, 1)] with i := 0xFFFF } 0xF21E (fun t => (t.i, t.reg 15)) = some (0, 0) := by decide

theorem test_T128_T129_ld_f :
    after (regs [(4, 0x1A)]) 0xF429 (fun t => t.i) = some 0x0032 ∧
    after (regs [(4, 0xFF)]) 0xF429 (fun t => t.i) = some 0x004B := by decide

theorem test_T112_ld_b :
    after { regs [(3, 0x7B)] with i := 0xFFD } 0xF333
      (fun t => (t.mem.read 0xFFD, t.mem.read 0xFFE, t.mem.read 0xFFF, t.fault)) = some (1, 2, 3, 0) := by decide

theorem test_T113_ld_b_out_of_bounds :
    after { regs [(3, 0x7B)] with i := 0xFFE } 0xF333 (fun t => (t.faultStatus, t.mem.read 0xFFE, t.mem.read 0xFFF)) =
      some ((2, 0x0200, 0xF333), 0, 0) := by decide

theorem test_T115_store_regs :
    after { regs [(0, 0x11), (1, 0x22), (2, 0x33), (3, 0x44)] with i := 0x300 } 0xF255
      (fun t => ([0x300, 0x301, 0x302, 0x303].map t.mem.read, t.i, t.pc)) =
      some ([0x11, 0x22, 0x33, 0x00], 0x300, 0x0202) := by decide

/-- T118: no byte is written, not even those that exist. -/
theorem test_T118_store_regs_out_of_bounds :
    after { regs [(0, 0xA0)] with i := 0xFF1 } 0xFF55 (fun t => (t.faultStatus, t.mem.read 0xFF1)) =
      some ((2, 0x0200, 0xFF55), 0) := by decide

theorem test_T122_load_regs :
    after { regs [] with i := 0x300, mem := [(0x300, 0xAA), (0x301, 0xBB), (0x302, 0xCC), (0x303, 0xDD)] } 0xF265
      (fun t => (t.reg 0, t.reg 1, t.reg 2, t.reg 3, t.i)) = some (0xAA, 0xBB, 0xCC, 0, 0x300) := by decide

/-- T126: the glyph of 0. -/
theorem test_T126_load_font :
    after (regs []) 0xF465 (fun t => [0, 1, 2, 3, 4].map t.reg) = some [0xF0, 0x90, 0x90, 0x90, 0xF0] := by decide

theorem test_T140_cls :
    after (lit [(0, 0), (5, 5), (63, 31)] (regs [(15, 1)])) 0x00E0
      (fun t => (row t 0 ++ row t 5 ++ row t 31, t.reg 15, t.pc)) = some ([], 1, 0x0202) := by decide

theorem test_E4_drw_wraps :
    after { regs [(0, 60)] with i := 0x300, mem := [(0x300, 0xFF)] } 0xD011 (fun t => (row t 0, t.reg 15)) =
      some ([0, 1, 2, 3, 60, 61, 62, 63], 0) := by decide

theorem test_T147_drw_collision :
    after (lit [(1, 0)] { regs [] with i := 0x300, mem := [(0x300, 0xC0)] }) 0xD011 (fun t => (row t 0, t.reg 15)) =
      some ([0], 1) := by decide

theorem test_T160_ld_dt : after (regs [(5, 0x3C)]) 0xF515 (fun t => (t.dt, t.pc)) = some (0x3C, 0x0202) := by decide

theorem test_T162_ld_st : after (regs [(5, 2)]) 0xF518 (fun t => (t.st, t.soundActive)) = some (2, true) := by decide

theorem test_T163_ld_vx_dt :
    after { regs [] with dt := 0x1E } 0xF307 (fun t => (t.reg 3, t.dt)) = some (0x1E, 0x1E) := by decide

theorem test_T164_tick :
    (let s := { regs [] with st := 2 }.tickTimers; let t := s.tickTimers; let u := t.tickTimers
     ((s.dt, s.st, s.soundActive), (t.dt, t.st, t.soundActive), (u.dt, u.st, u.soundActive))) =
      ((0, 1, true), (0, 0, false), (0, 0, false)) := by decide

theorem test_T182_T183_skp :
    after ((regs [(2, 0x15)]).setKey 5 true) 0xE29E (fun t => t.pc) = some 0x0204 ∧
    after (regs [(2, 0xF5)]) 0xE29E (fun t => t.pc) = some 0x0202 := by decide

theorem test_T184_T186_sknp :
    after (regs [(2, 5)]) 0xE2A1 (fun t => t.pc) = some 0x0204 ∧
    after ((regs [(2, 0xFF)]).setKey 15 true) 0xE2A1 (fun t => t.pc) = some 0x0202 := by decide

theorem test_T190_key_wait_arms :
    after (regs []) 0xF30A (fun t => (t.wait, t.waitX, t.pc)) = some (true, 3, 0x0200) := by decide

/-- The end of T194: two keys went down, the lowest wins. -/
theorem test_T194_poll_lowest_key :
    (let s := ({ regs [] with wait := true, waitX := 3 }.setKey 9 true).setKey 3 true
     let t := s.keyWaitPoll
     (t.reg 3, t.wait, t.pc)) = (3, false, 0x0202) := by decide

/-- T191: a key held at arming does not resolve the wait. -/
theorem test_T191_held_key :
    (let s := (regs []).setKey 7 true
     let t := { s with wait := true, waitX := 3, keyPrev := s.key }.keyWaitPoll
     (t.wait, t.pc)) = (true, 0x0200) := by decide

/-- 95_test_vectors.md 2.7: an illegal word, and the halted core (T210, T211). -/
theorem test_T210_T211_unknown_instruction :
    after (regs []) 0x5001 (fun t => (t.faultStatus, t.pc)) = some ((1, 0x0200, 0x5001), 0x0200) ∧
    (match step { regs [] with fault := 1 } with | .next t => some (t.fault, t.pc) | _ => none) = some (1, 0x0200) := by
  decide

/-- T198, and an index inside the range. -/
theorem test_T198_set_key :
    (match Session.start.apply (.setKey 16 true) with | .next (u, r) => some (u.core.key.toList, r) | _ => none) =
      some (List.replicate 16 false, .keyIndexRefused) ∧
    (match Session.start.apply (.setKey 15 true) with | .next (u, r) => some (u.core.key[15], r) | _ => none) =
      some (true, .done) := by decide

/-- Program P5 (a) loaded by the host, its first step, and a second load refused. -/
theorem test_P5a_load :
    (match Session.start.run [.load [0x22, 0x00], .step] with
      | .next u => some (u.core.sp, u.core.pc, u.core.stack[0]) | _ => none) = some (1, 0x0200, 0x0202) ∧
    (match Session.start.run [.load [0x22, 0x00], .load [0x22, 0x00]] with
      | .refused .loadOutOfOrder => true | _ => false) = true := by decide

/-! ### Assembly (30_encoding.md R107, R108) -/

/-- 95_test_vectors.md P1: the listing with its labels gives the image. -/
theorem test_P1_listing :
    (assembleListing [.line ⟨.ld, [.v 0, .const 0x00]⟩, .line ⟨.ld, [.v 1, .const 0x0A]⟩, .label ['l'],
        .line ⟨.add, [.v 0, .v 1]⟩, .line ⟨.add, [.v 1, .const 0xFF]⟩, .line ⟨.se, [.v 1, .const 0x00]⟩,
        .line ⟨.jp, [.label ['l']]⟩, .label ['d'], .line ⟨.jp, [.label ['d']]⟩]).map (List.map Prod.snd) =
      some [0x60, 0x00, 0x61, 0x0A, 0x80, 0x14, 0x71, 0xFF, 0x31, 0x00, 0x12, 0x04, 0x12, 0x0C] := by decide

/-- Directives, an omitted second operand, a missing label, and a constant that does not fit its field. -/
theorem test_R107_R108_directives :
    assembleListing [.org 0x300, .db [0xAB], .dw 0x6A42, .line ⟨.shr, [.v 1]⟩] =
      some [(0x300, 0xAB), (0x301, 0x6A), (0x302, 0x42), (0x303, 0x81), (0x304, 0x06)] ∧
    assembleListing [.line ⟨.jp, [.label ['x']]⟩] = none ∧
    SourceLine.assemble ⟨.ld, [.v 0, .const 0x100]⟩ = none := by decide

/-- Lines of 95_test_vectors.md P1 and P3 as text, and the other spelling of RET. -/
theorem test_R107_read :
    (assembleText [['l', ':', ' ', 'A', 'D', 'D', ' ', 'V', '1', ',', ' ', '0', 'x', 'F', 'F'],
        ['D', 'R', 'W', ' ', 'V', '1', ',', ' ', 'V', '2', ',', ' ', '5'], ['J', 'P', ' ', 'l'],
        ['R', 'E', 'T', 'U', 'R', 'N'], ['D', 'W', ' ', '0', 'x', '6', 'A', '4', '2']]).map (List.map Prod.snd) =
      some [0x71, 0xFF, 0xD1, 0x25, 0x12, 0x00, 0x00, 0xEE, 0x6A, 0x42] := by decide

theorem test_R107_text :
    (Instr.jpV0 0x300).source.text = ['J', 'P', ' ', 'V', '0', ',', ' ', '0', 'x', '3', '0', '0'] ∧
    Instr.cls.source.text = ['C', 'L', 'S'] ∧
    (Instr.storeRegs 15).source.text = ['L', 'D', ' ', '[', 'I', ']', ',', ' ', 'V', 'F'] := by decide

/-! ### Witnesses: for each statement with hypotheses or several clauses, states and operands that meet them, at the
boundary of each range -/

/-- A running state far from reset: in a subroutine, with registers, a timer, a pixel, memory and I in use. -/
def busy : State :=
  lit [(63, 31)] { regs [(0, 0x12), (1, 0xFF), (15, 1)] with
    pc := 0x300, sp := 1, stack := (Vector.replicate 16 0).set 0 0x0202, i := 0xFFD, dt := 5, st := 1
    mem := [(0x000, 0x3C), (0x300, 0xF0), (0x301, 0x1E), (0xFFF, 0x60)], draws := 3 }

theorem witness_busy_inv : busy.Inv ∧ busy ≠ State.reset :=
  ⟨⟨by decide, by decide, by decide, by decide, by decide, by decide, by decide, by decide⟩,
    fun h => absurd (congrArg State.sp h) (by decide)⟩

/-- The last fetchable address. -/
theorem witness_StepRunsDecodedInstruction :
    let s := { busy with pc := 0xFFE, mem := [(0xFFE, 0x6A), (0xFFF, 0x7F)] }
    s.fault = 0 ∧ s.wait = false ∧ s.pc.toNat ≤ 0xFFE ∧
      decodeWord (wordOfBytes (s.mem.read s.pc.toNat) (s.mem.read (s.pc.toNat + 1))) = .ok (.ldByte 10 0x7F) := by decide

/-- The first address that does not fetch, and the last that does with a legal and with an illegal word. -/
theorem witness_FetchIsBigEndianAndBounded :
    (busy.fault = 0 ∧ busy.wait = false) ∧ ({ busy with pc := 0xFFF } : State).pc.toNat ≥ 0xFFF ∧
    (let s := { busy with pc := 0xFFE, mem := [(0xFFE, 0x6A), (0xFFF, 0x7F)] }
     s.pc.toNat < 0xFFF ∧ (0x6A7F : Word).toNat = 256 * (s.mem.read 0xFFE).toNat + (s.mem.read 0xFFF).toNat ∧
       decodeWord 0x6A7F = .ok (.ldByte 10 0x7F)) ∧
    (let s := { busy with pc := 0xFFE }
     s.pc.toNat < 0xFFF ∧ (0x0060 : Word).toNat = 256 * (s.mem.read 0xFFE).toNat + (s.mem.read 0xFFF).toNat ∧
       decodeWord 0x0060 = .error (.family0 0x0060)) := by decide

theorem witness_EncodeOfDecode : decodeWord 0x8127 = .ok (.subn 1 2) := by decide

theorem witness_DecoderAcceptsExactlyTableRows :
    decodeWord 0xD12F = .ok (.drw 1 2 15) ∧ legalWord 0xD12F = true ∧ legalWord 0x5121 = false := by decide

theorem witness_DecoderRefusesExactlyIllegalWords :
    decodeWord 0x5121 = .error (.family5 0x5121) ∧ illegalWord 0x5121 = true ∧ illegalWord 0x5120 = false := by decide

theorem witness_WithFetchWordRunsNext :
    busy.mem.wf = true ∧ decodeTableWord 16 0xF265 = some (.loadRegs 2) := by decide

/-- An illegal word under PC, and a legal one. -/
theorem witness_UnknownInstructionExactlyOnIllegalWord :
    (let s := { busy with mem := [(0x300, 0x80), (0x301, 0x0F)] }
     s.fault = 0 ∧ s.wait = false ∧ fetchWord s.mem s.pc.toNat = some 0x800F ∧ illegalWord 0x800F = true) ∧
    fetchWord busy.mem busy.pc.toNat = some 0xF01E ∧ illegalWord 0xF01E = false := by decide

/-- What a meaning shows, if it answers a next state. -/
def result {α : Type} (i : Instr) (s : State) (f : State → α) : Option α :=
  match exec i s with
  | .next t => some (f t)
  | _ => none

/-- Each of the four at the last I that fits (FAULT 0) and at the first that does not (FAULT 2), DRW with no rows and I
outside memory, and an instruction with no access. -/
theorem witness_OutOfBoundsExactlyBeyondMemory :
    busy.fault = 0 ∧
    ([.drw 0 1 3, .ldB 1, .storeRegs 2, .loadRegs 2, .cls] : List Instr).map (fun i => result i busy State.fault) =
      List.replicate 5 (some 0) ∧
    ([.drw 0 1 4, .storeRegs 3, .loadRegs 3] : List Instr).map (fun i => result i busy State.fault) =
      List.replicate 3 (some 2) ∧
    result (.drw 0 1 0) { busy with i := 0xFFFF } State.fault = some 0 ∧
    result (.ldB 1) { busy with i := 0xFFE } State.fault = some 2 := by decide

theorem witness_MultiByteAccessFaultsWhole :
    ((4 : Nibble).toNat > 0 ∧ busy.i.toNat + (4 : Nibble).toNat - 1 ≥ 4096) ∧
    ({ busy with i := 0xFFE } : State).i.toNat + 2 ≥ 4096 ∧ busy.i.toNat + (3 : Reg).val ≥ 4096 := by decide

/-- Both conditions, and the neighbouring values of SP where neither holds. -/
theorem witness_StackFaultsExactlyOnFullCallAndEmptyRet :
    busy.fault = 0 ∧
    (∃ t, exec (.call 0x300) { busy with sp := 16 } = .next t ∧ t.fault.toNat = 3) ∧
    (∃ t, exec (.call 0x300) { busy with sp := 15 } = .next t ∧ t.fault.toNat = 0) ∧
    (∃ t, exec .ret { busy with sp := 0 } = .next t ∧ t.fault.toNat = 4) ∧
    (∃ t, exec .ret busy = .next t ∧ t.fault.toNat = 0) :=
  ⟨rfl, ⟨_, rfl, rfl⟩, ⟨_, rfl, rfl⟩, ⟨_, rfl, rfl⟩, ⟨_, rfl, rfl⟩⟩

theorem witness_StopsExactlyBeyondStack :
    exec .ret { busy with sp := 17 } = .fault .stackPointerRange ∧
    exec (.call 0x300) { busy with sp := 255 } = .fault .stackPointerRange ∧
    (∃ t, exec .ret { busy with sp := 16 } = .next t) := ⟨rfl, rfl, _, rfl⟩

/-- The fetch fails, the decode fails, the execution fails. -/
theorem witness_FaultingStepIsPrecise :
    busy.fault = 0 ∧ busy.wait = false ∧
    (∃ t, step { busy with pc := 0xFFF } = .next t ∧ t.fault ≠ 0) ∧
    (∃ t, step { busy with pc := 0x400 } = .next t ∧ t.fault ≠ 0) ∧
    (∃ t, step (busy.withFetchWord 16 0xFF65) = .next t ∧ t.fault ≠ 0) :=
  ⟨rfl, rfl, ⟨_, rfl, by decide⟩, ⟨_, rfl, by decide⟩, ⟨_, rfl, by decide⟩⟩

/-- A halted session, and requests it takes without a reset. -/
theorem witness_HaltedUntilReset :
    (Session.mk (busy.raise .outOfBounds 0xFF65) false).Inv ∧ (busy.raise .outOfBounds 0xFF65).fault ≠ 0 ∧
    Request.reset ∉ [Request.step, .tickTimers, .setKey 5 true, .setKey 16 true] ∧
    (∃ u', (Session.mk (busy.raise .outOfBounds 0xFF65) false).run [.step, .tickTimers, .setKey 5 true, .setKey 16 true] =
      .next u') :=
  ⟨⟨⟨by decide, by decide, by decide, by decide, by decide, by decide, by decide, by decide⟩, by decide⟩,
    by decide, by decide, _, rfl⟩

/-- A step from a state with the invariant other than reset (see `witness_busy_inv`). -/
theorem witness_StepKeepsInv : ∃ t, step busy = .next t ∧ t.i = 0x100F := ⟨_, rfl, by decide⟩

theorem witness_StepAlwaysAnswers : busy.Inv := witness_busy_inv.1

/-- A session far from the start takes every request but a late `load`, which is refused. -/
theorem witness_EveryInterleavingKeepsInv :
    (Session.mk busy false).Inv ∧
    (∃ u', (Session.mk busy false).run [.tickTimers, .step, .setKey 2 true, .reset, .load [0x12, 0x00], .step] = .next u') ∧
    (Session.mk busy false).run [.load [0x12, 0x00]] = .refused .loadOutOfOrder :=
  ⟨⟨witness_busy_inv.1, by decide⟩, ⟨_, rfl⟩, rfl⟩

/-- SP at the last value with room, and full. -/
theorem witness_CallPushesReturnAddress :
    ({ busy with sp := 15 } : State).sp.toNat < 16 ∧ ({ busy with sp := 16 } : State).sp.toNat = 16 := by decide

/-- SP = 1, SP = 16 and SP = 0. -/
theorem witness_ReturnPopsPc :
    busy.sp.toNat = (0 : Fin 16).val + 1 ∧ ({ busy with sp := 16 } : State).sp.toNat = (15 : Fin 16).val + 1 ∧
    ({ busy with sp := 0 } : State).sp.toNat = 0 := by decide

theorem witness_CallThenReturnResumes : ({ busy with sp := 15 } : State).sp.toNat < 16 := by decide

/-- Three bytes end at 0xFFF. -/
theorem witness_BcdStoresDigits : busy.mem.wf = true ∧ busy.i.toNat + 2 < 4096 := by decide

/-- Sixteen bytes end at 0xFFF. -/
theorem witness_StoreBlock :
    let s := { busy with i := 0xFF0 }
    s.mem.wf = true ∧ s.i.toNat + (15 : Reg).val < 4096 := by decide

theorem witness_LoadBlock : ({ busy with i := 0xFF0 } : State).i.toNat + (15 : Reg).val < 4096 := by decide

/-- V0, V1 hold the word 0x12FF, and I is PC + 2 at its largest. -/
theorem witness_StoreIsSeenByNextFetch :
    let s := { busy with pc := 0xFFC, i := 0xFFE }
    s.mem.wf = true ∧ s.fault = 0 ∧ s.wait = false ∧ s.i = s.pc + 2 ∧ s.pc.toNat ≤ 0xFFC ∧
      decodeWord (wordOfBytes (s.reg 0) (s.reg 1)) = .ok (.jp 0x2FF) := by decide

/-- No rows with I outside memory, and rows that end at 0xFFF; a covered pixel and one that is not. -/
theorem witness_DrawXorsCoveredPixels :
    (0 : Nibble).toNat = 0 ∧ busy.i.toNat + (3 : Nibble).toNat - 1 < 4096 ∧
    SpriteCovers { busy with i := 0xFFF } 0 1 1 19 31 ∧ ¬ SpriteCovers { busy with i := 0xFFF } 0 1 1 18 31 := by
  refine ⟨by decide, by decide, ⟨0, 1, by decide, by decide, by decide, by decide, by decide⟩, ?_⟩
  rintro ⟨r, c, hr, hc, hx, -, hb⟩
  obtain rfl : r = 0 := by simpa using hr
  have h0 : c = 0 := by
    have hv : (State.reg { busy with i := 0xFFF } 0).toNat = 0x12 := by decide
    omega
  subst h0
  revert hb
  decide

theorem witness_DrawTwiceRestores :
    (0 : Reg) ≠ Reg.vf ∧ (1 : Reg) ≠ Reg.vf ∧ busy.i.toNat + (3 : Nibble).toNat - 1 < 4096 := by decide

theorem witness_SkipOnKey :
    (2 : Reg).val = (busy.reg 0).toNat % 16 ∧ (15 : Reg).val = (busy.reg 1).toNat % 16 := by decide

/-- Keys 3 and 9 went down and key 1 was held (3 is the lowest that is new); and no key went down. -/
theorem witness_KeyWaitPollResolvesOnPress :
    (let s := (({ (busy.setKey 1 true) with wait := true, waitX := 3, keyPrev := (busy.setKey 1 true).key }.setKey 9
        true).setKey 3 true)
     s.fault = 0 ∧ s.wait = true ∧ s.key[(3 : Reg)] = true ∧ s.keyPrev[(3 : Reg)] = false ∧
       ∀ j : Reg, j < 3 → ¬ (s.key[j] = true ∧ s.keyPrev[j] = false)) ∧
    (let s := { (busy.setKey 1 true) with wait := true, waitX := 3, keyPrev := (busy.setKey 1 true).key }
     s.fault = 0 ∧ s.wait = true ∧ ∀ k : Reg, ¬ (s.key[k] = true ∧ s.keyPrev[k] = false)) := by decide

/-- A key held since before the wait. -/
theorem witness_KeyWaitBlocksWithoutPress :
    let s := { (busy.setKey 1 true) with wait := true, waitX := 3, keyPrev := (busy.setKey 1 true).key }
    s.fault = 0 ∧ s.wait = true ∧ s.key[(1 : Reg)] = true ∧
      ∀ k : Reg, ¬ (s.key[k] = true ∧ s.keyPrev[k] = false) := by decide

theorem witness_SetKeyWritesOneKey : 15 ≤ 15 ∧ 16 > 15 := by decide

/-- The empty, the largest and the smallest oversized image, and a session no longer open. -/
theorem witness_LoadPlacesImage :
    busy.mem.wf = true ∧ (Session.mk busy true).loadOpen = true ∧ (Session.mk busy false).loadOpen = false ∧
    ([] : List Byte).length ≤ 3584 ∧ (List.replicate 3584 (0xAA : Byte)).length ≤ 3584 ∧
    (List.replicate 3585 (0xAA : Byte)).length > 3584 := by
  simp only [List.length_replicate]
  decide

theorem witness_DisplayViewIsRowMajor : 63 < 64 ∧ 31 < 32 ∧ pixel busy.fb 63 31 = true := by decide

/-- For each clause an instruction that changes the state it is named for; a register as destination, in a range, as
flag. -/
theorem witness_OnlyNamedInstructionsWrite :
    ([.ldByte 3 7, .addReg 3 1, .ldVxDt 3].map fun i => result i busy fun t => t.reg 3 != busy.reg 3) =
      [some true, some true, some true] ∧
    result (.loadRegs 2) busy (fun t => t.reg 2 != busy.reg 2) = some true ∧
    result (.subReg 0 1) busy (fun t => t.reg Reg.vf != busy.reg Reg.vf) = some true ∧
    result .cls busy (fun t => t.fb != busy.fb) = some true ∧
    result (.ldB 1) busy (fun t => t.mem != busy.mem) = some true ∧
    result (.call 0x400) busy (fun t => t.stack != busy.stack && t.sp != busy.sp) = some true ∧
    result (.ldI 0x400) busy (fun t => t.i != busy.i) = some true ∧
    result (.ldDtVx 1) busy (fun t => t.dt != busy.dt) = some true ∧
    result (.ldStVx 1) busy (fun t => t.st != busy.st) = some true ∧
    result (.ldVxK 1) busy (fun t => t.wait != busy.wait) = some true ∧
    result (.loadRegs 3) busy (fun t => t.fault != busy.fault && t.faultOp != busy.faultOp) = some true ∧
    result (.rnd 1 0) busy (fun t => t.draws != busy.draws) = some true := by decide

/-- VF changed as a flag, and as a destination. -/
theorem witness_VfWrittenOnlyAsFlagOrDestination :
    (∃ t, exec (.subReg 0 1) busy = .next t ∧ t.reg Reg.vf ≠ busy.reg Reg.vf) ∧
    (∃ t, exec (.ldByte 15 7) busy = .next t ∧ t.reg Reg.vf ≠ busy.reg Reg.vf) :=
  ⟨⟨_, rfl, by decide⟩, ⟨_, rfl, by decide⟩⟩

theorem witness_NoInstructionReadsSoundTimer : ∃ t, step busy = .next t ∧ busy.st ≠ 0 := ⟨_, rfl, by decide⟩

end Sys2Proof.Tests
end

section
/-! What an instruction writes (10_state.md R38) as a table, and that `exec` stays within it. -/

namespace Sys2Proof

open Machine (Part)

/-- The parts of the state an instruction may change if it raises nothing (10_state.md R38). -/
def Instr.writes : Instr → List Part
  | .cls => [.fb, .pc]
  | .ret => [.sp, .pc]
  | .call _ => [.stack, .sp, .pc]
  | .jp _ | .jpV0 _ | .seByte _ _ | .sneByte _ _ | .seReg _ _ | .sneReg _ _ | .skp _ | .sknp _ => [.pc]
  | .ldI _ | .addI _ | .ldF _ => [.i, .pc]
  | .rnd _ _ => [.v, .draws, .pc]
  | .drw _ _ _ => [.fb, .v, .pc]
  | .ldVxK _ => [.wait]
  | .ldDtVx _ => [.dt, .pc]
  | .ldStVx _ => [.st, .pc]
  | .ldB _ | .storeRegs _ => [.mem, .pc]
  | .ldByte _ _ | .addByte _ _ | .ldReg _ _ | .orReg _ _ | .andReg _ _ | .xorReg _ _ => [.v, .pc]
  | .addReg _ _ | .subReg _ _ | .shr _ _ | .subn _ _ | .shl _ _ => [.v, .pc]
  | .ldVxDt _ | .loadRegs _ => [.v, .pc]

/-- The six instructions that leave a flag in VF (10_state.md R22). -/
def Instr.writesFlag : Instr → Bool
  | .addReg _ _ | .subReg _ _ | .shr _ _ | .subn _ _ | .shl _ _ | .drw _ _ _ => true
  | _ => false

/-- Whether an instruction names a register as a destination: its x field, or a register up to it for LD Vx,[I]
(10_state.md R38). -/
def Instr.hasDest (r : Reg) : Instr → Prop
  | .ldByte x _ | .addByte x _ | .rnd x _ => r = x
  | .ldReg x _ | .orReg x _ | .andReg x _ | .xorReg x _ => r = x
  | .addReg x _ | .subReg x _ | .shr x _ | .subn x _ | .shl x _ => r = x
  | .ldVxDt x => r = x
  | .loadRegs x => r ≤ x
  | _ => False

/-- The instructions that can raise a fatal condition when executed (60_exceptions.md R252 (b), R253, R254). -/
def Instr.mayFault : Instr → Bool
  | .ret | .call _ | .drw _ _ _ | .ldB _ | .storeRegs _ | .loadRegs _ => true
  | _ => false

end Sys2Proof

namespace Sys2Proof.Machine

section frames

variable {i : Instr} {s t : State}

/-! The frames inside the terms of Safety, by name. -/

theorem OnlyPc.frame {pc : Word} (h : OnlyPc s t pc) : UnchangedBut [.pc] s t := h.2

theorem OnlyReg.regs {x : Reg} {b : Byte} (h : OnlyReg s t x b) : RegsUnchangedBut [x] s t :=
  let ⟨_, _, hregs, _⟩ := h
  hregs

theorem OnlyReg.frame {x : Reg} {b : Byte} (h : OnlyReg s t x b) : UnchangedBut [.v, .pc] s t :=
  let ⟨_, _, _, hframe⟩ := h
  hframe

theorem RegThenFlag.regs {x : Reg} {result flag : Nat} (h : RegThenFlag s t x result flag) :
    RegsUnchangedBut [x, Reg.vf] s t :=
  let ⟨_, _, _, hregs, _⟩ := h
  hregs

theorem RegThenFlag.frame {x : Reg} {result flag : Nat} (h : RegThenFlag s t x result flag) :
    UnchangedBut [.v, .pc] s t :=
  let ⟨_, _, _, _, hframe⟩ := h
  hframe

/-- All an access through I can do, against the frame of what it does when it completes. -/
theorem State.ifSpanFits_fault_or_frame {count : Nat} {next : State} {parts : List Part}
    (h : s.ifSpanFits i count next = .next t) (hframe : UnchangedBut parts s next) :
    (∃ f, t = s.raise f (encode i)) ∨ UnchangedBut parts s t := by
  rcases s.ifSpanFits_cases i count next t h with ⟨-, rfl⟩ | ⟨-, rfl⟩
  · exact .inr hframe
  · exact .inl ⟨_, rfl⟩

/-- All an instruction that answers a next state can have done: one of the six that may raise a fatal condition raised
one, or nothing changed but the parts the instruction writes. -/
theorem exec_fault_or_frame (h : exec i s = .next t) :
    (i.mayFault = true ∧ ∃ f, t = s.raise f (encode i)) ∨ UnchangedBut i.writes s t := by
  cases i
  case seByte | sneByte | seReg | sneReg | skp | sknp => cases h; exact .inr (s.skipIf_onlyPc _).frame
  case ldByte | addByte | ldReg | orReg | andReg | xorReg | ldVxDt =>
    cases h; exact .inr (s.setReg_advance_onlyReg _ _).frame
  case addReg | subReg | shr | subn | shl =>
    cases h; exact .inr (s.setResultFlag_advance_regThenFlag _ _ _).frame
  case drw | ldB | storeRegs | loadRegs =>
    refine (State.ifSpanFits_fault_or_frame h fun p hp => ?_).imp_left fun hf => ⟨rfl, hf⟩
    cases p <;> simp_all [Instr.writes, SamePart, State.reg]
  case call nnn =>
    rcases execCall_cases nnn s t h with ⟨hs, rfl⟩ | ⟨-, rfl⟩
    · refine .inr fun p hp => ?_
      cases p <;> simp_all [Instr.writes, SamePart, State.reg]
    · exact .inl ⟨rfl, _, rfl⟩
  case ret =>
    rcases execRet_cases s t h with ⟨-, rfl⟩ | ⟨-, hs, rfl⟩
    · exact .inl ⟨rfl, _, rfl⟩
    · refine .inr fun p hp => ?_
      cases p <;> simp_all [Instr.writes, SamePart, State.reg]
  case cls | jp | jpV0 | ldI | addI | ldF | rnd | ldVxK | ldDtVx | ldStVx =>
    cases h
    refine .inr fun p hp => ?_
    cases p <;> simp_all [Instr.writes, SamePart, State.reg]

/-- An instruction changes only the parts it writes and, by a fault, the fault record. -/
theorem exec_frame (h : exec i s = .next t) : UnchangedBut (.fault :: i.writes) s t := by
  rcases exec_fault_or_frame h with ⟨-, f, rfl⟩ | hframe
  · exact (s.raise_frame f (encode i)).mono (by simp)
  · exact hframe.mono (by simp)

/-- A part of the state that an instruction changed, other than the fault record, is one it writes. -/
theorem exec_writes_of_changed {p : Part} (h : exec i s = .next t) (hp : p ≠ .fault) (hne : ¬ SamePart s t p) :
    p ∈ i.writes := by
  by_contra hnot
  exact hne (exec_frame h p (by simp [hp, hnot]))

/-- What a register reads after LD Vx,[I] has completed: unchanged above x. -/
theorem reg_loadRegs_of_lt {x r : Reg} (hr : x < r) :
    ({ s with v := loadBlock s.mem s.i.toNat s.v (x.val + 1) } : State).reg r = s.reg r := by
  have hlt : ¬ r.val < x.val + 1 := Nat.not_lt.mpr hr
  simp only [State.reg, loadBlock_getElem, if_neg hlt]

/-- An instruction changes a register only as a destination it names or as its flag. -/
theorem exec_reg_of_changed {r : Reg} (h : exec i s = .next t) (hne : t.reg r ≠ s.reg r) :
    i.hasDest r ∨ (r = Reg.vf ∧ i.writesFlag = true) := by
  have hv : Part.v ∈ i.writes := exec_writes_of_changed h (by decide) fun hsame => hne (hsame r)
  cases i
  case ldByte | addByte | ldReg | orReg | andReg | xorReg | ldVxDt | rnd =>
    cases h
    by_contra hnot
    exact hne ((s.setReg_advance_onlyReg _ _).regs r fun hr => hnot (.inl (List.mem_singleton.mp hr)))
  case addReg | subReg | shr | subn | shl =>
    cases h
    by_contra hnot
    refine hne ((s.setResultFlag_advance_regThenFlag _ _ _).regs r fun hr => hnot ?_)
    simpa [Instr.hasDest, Instr.writesFlag] using hr
  case drw x y n =>
    rcases State.ifSpanFits_cases _ _ _ _ _ h with ⟨-, rfl⟩ | ⟨-, rfl⟩
    · exact .inr ⟨not_not.mp fun hr => hne (State.reg_setReg_ne _ Reg.vf r _ hr), rfl⟩
    · exact absurd (s.reg_raise _ _ r) hne
  case loadRegs x =>
    rcases State.ifSpanFits_cases _ _ _ _ _ h with ⟨-, rfl⟩ | ⟨-, rfl⟩
    · exact .inl (not_lt.mp fun hr => hne (reg_loadRegs_of_lt hr))
    · exact absurd (s.reg_raise _ _ r) hne
  all_goals simp [Instr.writes] at hv

/-- A flag is 0 or 1 (10_state.md R22). -/
theorem flagByte_eq_zero_or_one (c : Bool) : flagByte c = 0 ∨ flagByte c = 1 := by cases c <;> decide

/-- A flag writer that changes VF leaves 0 or 1 in it (10_state.md R22): the flag is written last, so it stands even where
VF is also the destination (41_arithmetic_logic.md R162). -/
theorem exec_flag_eq_zero_or_one (h : exec i s = .next t) (hflag : i.writesFlag = true)
    (hne : t.reg Reg.vf ≠ s.reg Reg.vf) : t.reg Reg.vf = 0 ∨ t.reg Reg.vf = 1 := by
  cases i
  case addReg | subReg | shr | subn | shl =>
    cases h
    rw [State.reg_advance, State.reg_setResultFlag, if_pos rfl]
    exact flagByte_eq_zero_or_one _
  case drw x y n =>
    rcases State.ifSpanFits_cases _ _ _ _ _ h with ⟨-, rfl⟩ | ⟨-, rfl⟩
    · rw [State.reg_advance, State.reg_setReg_self]
      exact flagByte_eq_zero_or_one _
    · exact absurd (s.reg_raise _ _ _) hne
  all_goals cases hflag

/-! ### The rows of 10_state.md R38, read off the table -/

theorem writes_fb (h : Part.fb ∈ i.writes) : i = .cls ∨ ∃ x y n, i = .drw x y n := by
  cases i <;> simp_all [Instr.writes]

theorem writes_mem (h : Part.mem ∈ i.writes) : ∃ x, i = .ldB x ∨ i = .storeRegs x := by
  cases i <;> simp_all [Instr.writes]

theorem writes_stack (h : Part.stack ∈ i.writes) : ∃ nnn, i = .call nnn := by
  cases i <;> simp_all [Instr.writes]

theorem writes_sp (h : Part.sp ∈ i.writes) : i = .ret ∨ ∃ nnn, i = .call nnn := by
  cases i <;> simp_all [Instr.writes]

theorem writes_i (h : Part.i ∈ i.writes) : (∃ nnn, i = .ldI nnn) ∨ ∃ x, i = .addI x ∨ i = .ldF x := by
  cases i <;> simp_all [Instr.writes]

theorem writes_dt (h : Part.dt ∈ i.writes) : ∃ x, i = .ldDtVx x := by
  cases i <;> simp_all [Instr.writes]

theorem writes_st (h : Part.st ∈ i.writes) : ∃ x, i = .ldStVx x := by
  cases i <;> simp_all [Instr.writes]

theorem writes_wait (h : Part.wait ∈ i.writes) : ∃ x, i = .ldVxK x := by
  cases i <;> simp_all [Instr.writes]

theorem writes_draws (h : Part.draws ∈ i.writes) : ∃ x kk, i = .rnd x kk := by
  cases i <;> simp_all [Instr.writes]

theorem key_not_mem_writes : Part.key ∉ i.writes := by
  cases i <;> simp [Instr.writes]

theorem fault_not_mem_writes : Part.fault ∉ i.writes := by
  cases i <;> simp [Instr.writes]

theorem mayFault_named (h : i.mayFault = true) :
    i = .ret ∨ (∃ nnn, i = .call nnn) ∨ (∃ x y n, i = .drw x y n) ∨
      ∃ x, i = .ldB x ∨ i = .storeRegs x ∨ i = .loadRegs x := by
  cases i <;> simp_all [Instr.mayFault]

theorem hasDest_named {r : Reg} (h : i.hasDest r) :
    (∃ kk, i = .ldByte r kk ∨ i = .addByte r kk ∨ i = .rnd r kk) ∨
    (∃ y, i = .ldReg r y ∨ i = .orReg r y ∨ i = .andReg r y ∨ i = .xorReg r y ∨ i = .addReg r y ∨ i = .subReg r y ∨
      i = .shr r y ∨ i = .subn r y ∨ i = .shl r y) ∨
    i = .ldVxDt r ∨ ∃ x, i = .loadRegs x ∧ r ≤ x := by
  cases i <;> simp_all [Instr.hasDest]

theorem writesFlag_named (h : i.writesFlag = true) :
    ∃ x y, i = .addReg x y ∨ i = .subReg x y ∨ i = .shr x y ∨ i = .subn x y ∨ i = .shl x y ∨ ∃ n, i = .drw x y n := by
  cases i <;> simp_all [Instr.writesFlag]

/-- The fault record changes only by one of the six instructions that may fault, and then nothing else does
(60_exceptions.md R256). -/
theorem exec_fault_of_changed (h : exec i s = .next t) (hne : ¬ SamePart s t .fault) :
    i.mayFault = true ∧ t.fault ≠ 0 ∧ UnchangedBut [.fault] s t := by
  rcases exec_fault_or_frame h with ⟨hmay, f, rfl⟩ | hframe
  · exact ⟨hmay, s.raise_halted f _, s.raise_frame f _⟩
  · exact absurd (hframe .fault fault_not_mem_writes) hne

end frames

/-- Settles O58: the table `Instr.writes`, the destinations and the fault frame, row by row. -/
theorem onlyNamedInstructionsWrite : Obligations.OnlyNamedInstructionsWrite := by
  intro i s t h
  have written {p : Part} (hp : p ≠ .fault) (hne : ¬ SamePart s t p) : p ∈ i.writes :=
    exec_writes_of_changed h hp hne
  refine ⟨fun r hr => ?_,
    exec_frame h .key (by simp [key_not_mem_writes]),
    fun hne => writes_fb (written (by decide) hne),
    fun hne => writes_mem (written (by decide) fun hsame => hne hsame.1),
    fun hne => writes_stack (written (by decide) hne),
    fun hne => writes_sp (written (by decide) hne),
    fun hne => writes_i (written (by decide) hne),
    fun hne => writes_dt (written (by decide) hne),
    fun hne => writes_st (written (by decide) hne),
    fun hne => writes_wait (written (by decide) ?_),
    fun hne => ?_,
    fun hne => writes_draws (written (by decide) hne)⟩
  · have hnamed := (exec_reg_of_changed h hr).imp hasDest_named (And.imp_right writesFlag_named)
    simpa only [or_assoc] using hnamed
  · rintro ⟨hwait, hx, hprev⟩
    simp_all
  · obtain ⟨hmay, hfault, hframe⟩ : i.mayFault = true ∧ t.fault ≠ 0 ∧ UnchangedBut [.fault] s t :=
      exec_fault_of_changed h (by rintro ⟨hcode, hpc, hop⟩; simp_all)
    exact ⟨hfault, hframe, mayFault_named hmay⟩

/-- Settles O59: VF is a destination, or the flag of a flag writer. -/
theorem vfWrittenOnlyAsFlagOrDestination : Obligations.VfWrittenOnlyAsFlagOrDestination := by
  intro i s t h hne
  by_cases hflag : i.writesFlag = true
  · have h01 := exec_flag_eq_zero_or_one h hflag hne
    obtain ⟨x, y, hi⟩ := writesFlag_named hflag
    exact .inl ⟨⟨x, y, by tauto⟩, h01⟩
  · have hdest : i.hasDest Reg.vf := (exec_reg_of_changed h hne).resolve_right fun hvf => hflag hvf.2
    right
    cases i
    case loadRegs x => exact .inr (.inr (.inr (congrArg _ (le_antisymm (Fin.le_last x) hdest))))
    all_goals simp_all [Instr.hasDest, Instr.writesFlag]

end Sys2Proof.Machine
end

section
/-! Where the model stops (log 4): CALL and RET beyond the stack, and nowhere else. -/

namespace Sys2Proof.Machine

section answers

variable {i : Instr} {s t : State}

/-- CALL answers a next state while SP is one of the values the spec reaches (10_state.md R25). -/
theorem execCall_answers (nnn : Addr12) (hsp : s.sp.toNat ≤ 16) : ∃ t, execCall nnn s = .next t := by
  unfold execCall
  by_cases hroom : s.sp.toNat < 16
  · exact ⟨_, dif_pos hroom⟩
  · have hfull : s.sp = 16 := BitVec.eq_of_toNat_eq (show s.sp.toNat = 16 by omega)
    exact ⟨_, (dif_neg hroom).trans (if_pos hfull)⟩

/-- RET answers a next state while SP is one of the values the spec reaches (10_state.md R25). -/
theorem execRet_answers (hsp : s.sp.toNat ≤ 16) : ∃ t, execRet s = .next t := by
  unfold execRet
  by_cases hempty : s.sp = 0
  · exact ⟨_, if_pos hempty⟩
  · exact ⟨_, (if_neg hempty).trans (dif_pos (by omega))⟩

/-- CALL and RET stop the model where STACK has no entry for SP (log 4). -/
theorem exec_stops (hi : i = .ret ∨ ∃ nnn, i = .call nnn) (hsp : s.sp.toNat ≥ 17) :
    exec i s = .fault .stackPointerRange := by
  rcases hi with rfl | ⟨nnn, rfl⟩
  · have hne : s.sp ≠ 0 := fun h => by simp [h] at hsp
    exact (if_neg hne).trans (dif_neg (by omega))
  · have hne : s.sp ≠ 16 := fun h => by simp [h] at hsp
    exact (dif_neg (by omega)).trans (if_neg hne)

/-- An access through I always answers a next state. -/
theorem State.ifSpanFits_answers (count : Nat) (next : State) : ∃ t, s.ifSpanFits i count next = .next t := by
  cases hf : spanFits s.i.toNat count
  · exact ⟨_, s.ifSpanFits_raises i count next hf⟩
  · exact ⟨_, s.ifSpanFits_fits i count next hf⟩

/-- An instruction answers a next state unless it is CALL or RET beyond the stack. -/
theorem exec_answers (h : ¬ ((i = .ret ∨ ∃ nnn, i = .call nnn) ∧ s.sp.toNat ≥ 17)) : ∃ t, exec i s = .next t := by
  cases i
  case call nnn => exact execCall_answers nnn (Nat.le_of_not_lt fun hsp => h ⟨.inr ⟨nnn, rfl⟩, hsp⟩)
  case ret => exact execRet_answers (Nat.le_of_not_lt fun hsp => h ⟨.inl rfl, hsp⟩)
  case drw | ldB | storeRegs | loadRegs => exact State.ifSpanFits_answers _ _
  all_goals exact ⟨_, rfl⟩

end answers

/-- Settles O14: an instruction stops the model beyond the stack and answers a next state everywhere else. -/
theorem stopsExactlyBeyondStack : Obligations.StopsExactlyBeyondStack := by
  intro i s
  by_cases h : (i = .ret ∨ ∃ nnn, i = .call nnn) ∧ s.sp.toNat ≥ 17
  · simp [exec_stops h.1 h.2, h]
  · obtain ⟨t, ht⟩ := exec_answers h
    simp [ht, h]

/-- Settles O20: within the stack no branch of the step cycle stops the model. -/
theorem stepAlwaysAnswers : Obligations.StepAlwaysAnswers := by
  intro s hs
  by_cases hf : s.fault = 0
  · by_cases hw : s.wait = true
    · exact ⟨_, step_waiting s hf hw⟩
    · rw [step_running s ⟨hf, Bool.eq_false_of_not_eq_true hw⟩]
      rcases fetchDecodeExecute_cases s with ⟨-, h⟩ | ⟨w, e, -, -, h⟩ | ⟨w, i, -, -, h⟩
      · exact ⟨_, h⟩
      · exact ⟨_, h⟩
      · rw [h]
        exact exec_answers fun hstop => absurd hs.spRange (by omega)
  · exact ⟨_, step_halted s hf⟩

end Sys2Proof.Machine
end

section
/-! The invariant of 10_state.md R24, R25, R35: at reset, and kept by every step, field by field. -/

namespace Sys2Proof.Machine

/-- Settles O18: every field of the state after reset is a literal. -/
theorem resetSatisfiesInv : Obligations.ResetSatisfiesInv := by
  have hreset : State.reset.Inv :=
    { memCanonical := rfl
      spRange := by decide
      stackRange := by decide
      pcRange := by decide
      waitPc := by decide
      faultRange := by decide
      noRecord := by decide
      recordPc := by decide }
  exact ⟨hreset, hreset, fun _ => ⟨rfl, rfl⟩⟩

section invariant

variable {i : Instr} {s t : State}

/-- The fatal codes are among 1 to 4 (60_exceptions.md R250). -/
theorem fatalCode_toNat_le (f : Fatal) : (fatalCode f).toNat ≤ 4 := by cases f <;> decide

/-- Taking a fatal condition keeps the invariant: the record is legal and names PC (10_state.md R35). -/
theorem State.Inv.raise (hs : s.Inv) (hw : s.wait = false) (f : Fatal) (op : Word) : (s.raise f op).Inv where
  memCanonical := hs.memCanonical
  spRange := hs.spRange
  stackRange := hs.stackRange
  pcRange := hs.pcRange
  waitPc h := by simp [hw] at h
  faultRange := fatalCode_toNat_le f
  noRecord h := absurd h (s.raise_halted f op)
  recordPc _ := rfl

/-- The poll of a key wait keeps the invariant: the wait stands at a fetchable PC, so PC + 2 is in range. -/
theorem State.Inv.keyWaitPoll (hs : s.Inv) (hw : s.wait = true) : s.keyWaitPoll.Inv := by
  obtain ⟨hpc, hf⟩ := hs.waitPc hw
  rcases s.keyWaitPoll_cases with ⟨k, -, hk⟩ | ⟨-, hk⟩ <;> rw [hk]
  · have hpc2 : (s.pc + 2).toNat ≤ 0x10FE := by bv_omega
    exact { hs with
      pcRange := hpc2
      waitPc := fun h => absurd h Bool.false_ne_true
      recordPc := fun h => absurd hf h }
  · exact { hs with }

/-- Everything PC can be after an instruction that answers a next state: where it was, one or two instructions on, the
address the instruction names, that address and V0, or a return address. -/
theorem exec_pc_cases (h : exec i s = .next t) :
    t.pc = s.pc ∨ t.pc = s.pc + 2 ∨ t.pc = s.pc + 4 ∨ (∃ nnn, t.pc = zextAddr nnn) ∨
      (∃ nnn, t.pc = zextAddr nnn + zextByte (s.reg 0)) ∨ ∃ k : Fin 16, t.pc = s.stack[k] := by
  cases i
  case seByte | sneByte | seReg | sneReg | skp | sknp =>
    cases h
    rw [State.skipIf_pc]
    split <;> simp
  case drw | ldB | storeRegs | loadRegs =>
    rcases State.ifSpanFits_cases _ _ _ _ _ h with ⟨-, rfl⟩ | ⟨-, rfl⟩
    · exact .inr (.inl rfl)
    · exact .inl rfl
  case jp nnn => cases h; exact .inr (.inr (.inr (.inl ⟨nnn, rfl⟩)))
  case jpV0 nnn => cases h; exact .inr (.inr (.inr (.inr (.inl ⟨nnn, rfl⟩))))
  case call nnn =>
    rcases execCall_cases nnn s t h with ⟨-, rfl⟩ | ⟨-, rfl⟩
    · exact .inr (.inr (.inr (.inl ⟨nnn, rfl⟩)))
    · exact .inl rfl
  case ret =>
    rcases execRet_cases s t h with ⟨-, rfl⟩ | ⟨-, hk, rfl⟩
    · exact .inl rfl
    · exact .inr (.inr (.inr (.inr (.inr ⟨⟨_, hk⟩, rfl⟩))))
  case ldVxK => cases h; exact .inl rfl
  all_goals cases h; exact .inr (.inl rfl)

theorem zextAddr_toNat_lt (nnn : Addr12) : (zextAddr nnn).toNat < 0x1000 := by
  have := nnn.isLt
  simp only [zextAddr, BitVec.truncate_eq_setWidth, BitVec.toNat_setWidth]
  omega

/-- The sum of JP V0 is exact, at most 0xFFF + 0xFF (40_control_flow.md R139). -/
theorem zextAddr_add_zextByte_le (nnn : Addr12) (b : Byte) : (zextAddr nnn + zextByte b).toNat ≤ 0x10FE := by
  have hn := zextAddr_toNat_lt nnn
  have hb : (zextByte b).toNat < 0x100 := by
    have := b.isLt
    simp only [zextByte, BitVec.truncate_eq_setWidth, BitVec.toNat_setWidth]
    omega
  bv_omega

/-- PC stays in range from a fetchable PC (10_state.md R24). -/
theorem exec_keeps_pcRange (hs : s.Inv) (hpc : s.pc.toNat ≤ 0xFFE) (h : exec i s = .next t) :
    t.pc.toNat ≤ 0x10FE := by
  rcases exec_pc_cases h with h | h | h | ⟨nnn, h⟩ | ⟨nnn, h⟩ | ⟨k, h⟩ <;> rw [h]
  · omega
  · bv_omega
  · bv_omega
  · have := zextAddr_toNat_lt nnn
    omega
  · exact zextAddr_add_zextByte_le nnn _
  · exact (hs.stackRange k).trans (by decide)

/-- A store through I that answers a next state keeps memory canonical: it writes only where its span exists. -/
theorem State.store_keeps_memCanonical {n : Nat} {bs : List Byte} (hs : s.mem.wf = true) (hlen : bs.length = n + 1)
    (h : s.ifSpanFits i (n + 1) { s with mem := s.mem.writeBytes s.i.toNat bs }.advance = .next t) :
    t.mem.wf = true := by
  rcases State.ifSpanFits_cases _ _ _ _ _ h with ⟨hfit, rfl⟩ | ⟨-, rfl⟩
  · have hspan : s.i.toNat + bs.length ≤ memSize := by simpa [spanFits_iff, hlen] using hfit
    exact Memory.wf_writeBytes bs s.mem s.i.toNat hs hspan
  · exact hs

/-- Memory stays canonical: only LD B and LD [I],Vx write it. -/
theorem exec_keeps_memCanonical (hs : s.mem.wf = true) (h : exec i s = .next t) : t.mem.wf = true := by
  by_cases hmem : Part.mem ∈ i.writes
  · obtain ⟨x, rfl | rfl⟩ := writes_mem hmem
    · exact State.store_keeps_memCanonical (bs := bcdDigits (s.reg x)) hs rfl h
    · exact State.store_keeps_memCanonical (bs := blockRegs s x) hs (by simp [blockRegs]) h
  · rw [(exec_frame h .mem (by simp [hmem])).1]
    exact hs

/-- SP stays in range: CALL pushes below 16 only, RET pops above 0 only (10_state.md R25). -/
theorem exec_keeps_spRange (hs : s.sp.toNat ≤ 16) (h : exec i s = .next t) : t.sp.toNat ≤ 16 := by
  by_cases hsp : Part.sp ∈ i.writes
  · obtain rfl | ⟨nnn, rfl⟩ := writes_sp hsp
    · rcases execRet_cases s t h with ⟨-, rfl⟩ | ⟨hne, -, rfl⟩
      · exact hs
      · show (s.sp - 1).toNat ≤ 16
        bv_omega
    · rcases execCall_cases nnn s t h with ⟨hroom, rfl⟩ | ⟨-, rfl⟩
      · show (s.sp + 1).toNat ≤ 16
        bv_omega
      · exact hs
  · rw [exec_frame h .sp (by simp [hsp])]
    exact hs

/-- Return addresses stay in range: CALL pushes PC + 2 from a fetchable PC (40_control_flow.md R131). -/
theorem exec_keeps_stackRange (hs : s.Inv) (hpc : s.pc.toNat ≤ 0xFFE) (h : exec i s = .next t) (k : Fin 16) :
    (t.stack[k]).toNat ≤ 0x1000 := by
  by_cases hstack : Part.stack ∈ i.writes
  · obtain ⟨nnn, rfl⟩ := writes_stack hstack
    rcases execCall_cases nnn s t h with ⟨hroom, rfl⟩ | ⟨-, rfl⟩
    · have hret : (s.pc + 2).toNat ≤ 0x1000 := by bv_omega
      have hk := hs.stackRange k
      simp only [Fin.getElem_fin, Vector.getElem_set] at hk ⊢
      split <;> assumption
    · exact hs.stackRange k
  · rw [exec_frame h .stack (by simp [hstack])]
    exact hs.stackRange k

/-- After an instruction a key wait is pending only if LD Vx,K armed it, at its own PC (45_input.md R233). -/
theorem exec_wait_pc (hw : s.wait = false) (h : exec i s = .next t) (ht : t.wait = true) : t.pc = s.pc := by
  by_cases hwait : Part.wait ∈ i.writes
  · obtain ⟨x, rfl⟩ := writes_wait hwait
    cases h
    rfl
  · have := (exec_frame h .wait (by simp [hwait])).1
    simp_all

/-- An instruction fetched by a running core keeps the invariant. -/
theorem exec_keeps_inv (hs : s.Inv) (hr : s.Running) (hpc : s.pc.toNat ≤ 0xFFE) (h : exec i s = .next t) : t.Inv := by
  obtain ⟨hf, hw⟩ := hr
  rcases exec_fault_or_frame h with ⟨-, f, rfl⟩ | hframe
  · exact hs.raise hw f _
  · obtain ⟨hfault, hfaultPc, hfaultOp⟩ := hframe .fault fault_not_mem_writes
    have htf : t.fault = 0 := hfault.trans hf
    exact
      { memCanonical := exec_keeps_memCanonical hs.memCanonical h
        spRange := exec_keeps_spRange hs.spRange h
        stackRange := exec_keeps_stackRange hs hpc h
        pcRange := exec_keeps_pcRange hs hpc h
        waitPc := fun ht => ⟨exec_wait_pc hw h ht ▸ hpc, htf⟩
        faultRange := by simp [htf]
        noRecord := fun _ => by rw [hfaultPc, hfaultOp]; exact hs.noRecord hf
        recordPc := fun hne => absurd htf hne }

end invariant

/-- Settles O19, along the cases of the step cycle (30_encoding.md R90). -/
theorem stepKeepsInv : Obligations.StepKeepsInv := by
  intro s t hs h
  rcases step_next_cases s t h with ⟨-, rfl⟩ | ⟨-, hw, rfl⟩ | ⟨hr, -, rfl⟩ | ⟨hr, w, e, -, -, rfl⟩ |
    ⟨hr, w, i, hfetch, -, hexec⟩
  · exact hs
  · exact hs.keyWaitPoll hw
  · exact hs.raise hr.2 _ _
  · exact hs.raise hr.2 _ _
  · exact exec_keeps_inv hs hr ((fetchWord_some_iff _ _ _).mp hfetch).1 hexec

end Sys2Proof.Machine
end

section
/-! No instruction reads ST (10_state.md R28): a step commutes with another value in ST. -/

namespace Sys2Proof.Machine

section soundTimer

variable {i : Instr} {s t : State}

/-- The same state with another value in ST. -/
def State.withSt (s : State) (b : Byte) : State := { s with st := b }

theorem State.withSt_frame (s : State) (b : Byte) : UnchangedBut [.st] s (s.withSt b) := by
  intro p hp
  cases p <;> simp_all [SamePart, State.withSt, State.reg]

/-- The poll of a key wait does not look at ST. -/
theorem State.keyWaitPoll_withSt (s : State) (b : Byte) : (s.withSt b).keyWaitPoll = s.keyWaitPoll.withSt b := by
  simp only [State.keyWaitPoll, State.withSt]
  cases newKey s.key s.keyPrev <;> rfl

/-- An access through I does not look at ST. -/
theorem State.ifSpanFits_withSt {count : Nat} {next : State} (b : Byte) (h : s.ifSpanFits i count next = .next t) :
    (s.withSt b).ifSpanFits i count (next.withSt b) = .next (t.withSt b) := by
  rcases s.ifSpanFits_cases i count next t h with ⟨hfit, rfl⟩ | ⟨hfit, rfl⟩
  · exact State.ifSpanFits_fits _ i count _ hfit
  · exact State.ifSpanFits_raises _ i count _ hfit

/-- An instruction that does not write ST does the same whatever ST holds, and keeps what it holds. -/
theorem exec_withSt (b : Byte) (h : exec i s = .next t) (hi : Part.st ∉ i.writes) :
    exec i (s.withSt b) = .next (t.withSt b) := by
  cases i
  case ldStVx => simp [Instr.writes] at hi
  case drw | ldB | storeRegs | loadRegs => exact State.ifSpanFits_withSt b h
  case call nnn =>
    rcases execCall_cases nnn s t h with ⟨hroom, rfl⟩ | ⟨hfull, rfl⟩
    · exact dif_pos hroom
    · exact (dif_neg (by simp [State.withSt, hfull])).trans (if_pos hfull)
  case ret =>
    rcases execRet_cases s t h with ⟨hempty, rfl⟩ | ⟨hne, hk, rfl⟩
    · exact if_pos hempty
    · exact (if_neg hne).trans (dif_pos hk)
  all_goals cases h; rfl

/-- For the same random byte, an instruction does the same in all but ST, whatever ST holds. -/
theorem exec_withSt_frame (b : Byte) (h : exec i s = .next t) :
    ∃ t', exec i (s.withSt b) = .next t' ∧ UnchangedBut [.st] t t' := by
  by_cases hst : Part.st ∈ i.writes
  · obtain ⟨x, rfl⟩ := writes_st hst
    exact ⟨t, h, .refl _ t⟩
  · exact ⟨t.withSt b, exec_withSt b h hst, t.withSt_frame b⟩

/-! The three exits of a fetch, by what memory holds at PC. -/

theorem fetchDecodeExecute_of_beyond (h : s.pc.toNat ≥ 0xFFF) :
    fetchDecodeExecute s = .next (s.raise .outOfBounds 0x0000) := by
  simp [fetchDecodeExecute, (fetchWord_none_iff s.mem _).mpr h]

theorem fetchDecodeExecute_of_error {w : Word} {e : Illegal} (hw : fetchWord s.mem s.pc.toNat = some w)
    (he : decodeWord w = .error e) : fetchDecodeExecute s = .next (s.raise .unknownInstruction w) := by
  simp [fetchDecodeExecute, hw, he]

theorem fetchDecodeExecute_of_ok {w : Word} (hw : fetchWord s.mem s.pc.toNat = some w) (hi : decodeWord w = .ok i) :
    fetchDecodeExecute s = exec i s := by
  simp [fetchDecodeExecute, hw, hi]

end soundTimer

/-- Settles O60, along the cases of the step cycle: none of them looks at ST. -/
theorem noInstructionReadsSoundTimer : Obligations.NoInstructionReadsSoundTimer := by
  intro s t b h
  have running (hr : s.Running) : step (s.withSt b) = fetchDecodeExecute (s.withSt b) := step_running (s.withSt b) hr
  rcases step_next_cases s t h with ⟨hhalt, rfl⟩ | ⟨hf, hw, rfl⟩ | ⟨hr, hpc, rfl⟩ | ⟨hr, w, e, hfetch, herr, rfl⟩ |
    ⟨hr, w, i, hfetch, hok, hexec⟩
  · exact ⟨t.withSt b, step_halted (t.withSt b) hhalt, t.withSt_frame b⟩
  · have hpoll : step (s.withSt b) = .next (s.withSt b).keyWaitPoll := step_waiting (s.withSt b) hf hw
    exact ⟨s.keyWaitPoll.withSt b, hpoll.trans (by rw [s.keyWaitPoll_withSt b]), State.withSt_frame _ b⟩
  · exact ⟨_, (running hr).trans (fetchDecodeExecute_of_beyond hpc), (s.raise _ _).withSt_frame b⟩
  · exact ⟨_, (running hr).trans (fetchDecodeExecute_of_error hfetch herr), (s.raise _ _).withSt_frame b⟩
  · obtain ⟨t', hexec', hframe⟩ := exec_withSt_frame b hexec
    exact ⟨t', (running hr).trans ((fetchDecodeExecute_of_ok (s := s.withSt b) hfetch hok).trans hexec'), hframe⟩

end Sys2Proof.Machine
end

section
/-! Fetch and the accesses through I (20_memory.md R65 to R73). -/

namespace Sys2Proof.Machine

section access

variable {i : Instr} {s : State}

/-! The three exits of a running core's step, by what memory holds at PC. -/

theorem step_of_beyond (hr : s.Running) (hpc : s.pc.toNat ≥ 0xFFF) : step s = .next (s.raise .outOfBounds 0x0000) :=
  (step_running s hr).trans (fetchDecodeExecute_of_beyond hpc)

theorem step_of_error {w : Word} {e : Illegal} (hr : s.Running) (hw : fetchWord s.mem s.pc.toNat = some w)
    (he : decodeWord w = .error e) : step s = .next (s.raise .unknownInstruction w) :=
  (step_running s hr).trans (fetchDecodeExecute_of_error hw he)

theorem step_of_ok {w : Word} (hr : s.Running) (hw : fetchWord s.mem s.pc.toNat = some w)
    (hi : decodeWord w = .ok i) : step s = exec i s :=
  (step_running s hr).trans (fetchDecodeExecute_of_ok hw hi)

/-- The fetched word is the big-endian number of its two bytes (20_memory.md R65). -/
theorem fetchWord_of_toNat {m : Memory} {pc : Nat} {w : Word} (hpc : pc < 0xFFF)
    (hw : w.toNat = 256 * (m.read pc).toNat + (m.read (pc + 1)).toNat) : fetchWord m pc = some w :=
  (fetchWord_some_iff m pc w).mpr
    ⟨Nat.le_of_lt_succ hpc, BitVec.eq_of_toNat_eq (hw.trans (toNat_wordOfBytes _ _).symm)⟩

/-! An access through I whose last byte does not exist, and the word it records. -/

/-- Such an access records OutOfBounds with the instruction's word and changes nothing else (20_memory.md R68). -/
theorem State.ifSpanFits_faultRecorded {count op : Nat} (next : State) (hcount : 0 < count)
    (hbeyond : s.i.toNat + count > memSize) (hop : (encode i).toNat = op) :
    ∃ t, s.ifSpanFits i count next = .next t ∧ FaultRecorded s t 2 op := by
  have hfit : spanFits s.i.toNat count = false := by
    rw [Bool.eq_false_iff, Ne, spanFits_iff]
    omega
  exact ⟨_, s.ifSpanFits_raises i count next hfit, hop ▸ s.raise_recorded .outOfBounds (encode i)⟩

/-- A word of format X in family F (30_encoding.md R92). -/
theorem toNat_formatX_familyF (x : Reg) (kk : Byte) :
    (formatXKK 0xF x kk).toNat = 0xF000 + kk.toNat + 0x100 * x.val :=
  (toNat_formatXKK 0xF x kk).trans (Nat.add_right_comm 0xF000 (0x100 * x.val) kk.toNat)

/-! The block that LD [I],Vx stores. -/

theorem blockRegs_length (s : State) (x : Reg) : (blockRegs s x).length = x.val + 1 := by
  simp [blockRegs]

theorem blockRegs_getElem (s : State) (x k : Reg) (hk : k.val < (blockRegs s x).length) :
    (blockRegs s x)[k.val] = s.reg k := by
  simp [blockRegs, State.reg]

/-- LD [I],Vx completes where its last byte exists (42_memory_index.md R184). -/
theorem exec_storeRegs_of_fits {x : Reg} (hfit : s.i.toNat + x.val < 4096) :
    exec (.storeRegs x) s = .next { s with mem := s.mem.writeBytes s.i.toNat (blockRegs s x) }.advance :=
  s.ifSpanFits_fits _ _ _ ((spanFits_iff _ _).mpr (.inr hfit))

/-- Each byte of a stored block reads as the register it came from (42_memory_index.md R184). -/
theorem read_writeBytes_blockRegs {x k : Reg} (hm : s.mem.wf = true) (hfit : s.i.toNat + x.val < 4096) (hk : k ≤ x) :
    (s.mem.writeBytes s.i.toNat (blockRegs s x)).read (s.i.toNat + k.val) = s.reg k := by
  have hlen := blockRegs_length s x
  have hk' : k.val < (blockRegs s x).length := hlen ▸ Nat.lt_succ_of_le hk
  have hspan : s.i.toNat + (blockRegs s x).length ≤ memSize := by rw [hlen]; exact hfit
  rw [Memory.read_writeBytes_inside _ _ _ _ hk' hm hspan, blockRegs_getElem]

/-- The word at I after V0 and V1 are stored there. -/
theorem fetchWord_storedPair (hm : s.mem.wf = true) (hfit : s.i.toNat + 1 < 4096) :
    fetchWord (s.mem.writeBytes s.i.toNat (blockRegs s 1)) s.i.toNat = some (wordOfBytes (s.reg 0) (s.reg 1)) := by
  have h0 := read_writeBytes_blockRegs (x := 1) (k := 0) hm hfit (by decide)
  have h1 := read_writeBytes_blockRegs (x := 1) (k := 1) hm hfit (by decide)
  exact (fetchWord_some_iff _ _ _).mpr ⟨by omega, congrArg₂ wordOfBytes h0.symm h1.symm⟩

end access

/-- Settles O2: the exits of a running step, the word fetched being the one with the big-endian value. -/
theorem fetchIsBigEndianAndBounded : Obligations.FetchIsBigEndianAndBounded := by
  intro s hf hw
  have hr : s.Running := ⟨hf, hw⟩
  refine ⟨fun hpc => ⟨_, step_of_beyond hr hpc, s.raise_recorded .outOfBounds 0x0000⟩, fun hpc w hvalue => ?_⟩
  have hfetch : fetchWord s.mem s.pc.toNat = some w := fetchWord_of_toNat hpc hvalue
  exact ⟨fun i hi => step_of_ok hr hfetch hi,
    fun e he => ⟨_, step_of_error hr hfetch he, s.raise_recorded .unknownInstruction w⟩⟩

/-- Settles O12: each of the four is an access through I, and the bound puts its span beyond memory. -/
theorem multiByteAccessFaultsWhole : Obligations.MultiByteAccessFaultsWhole := by
  intro x y n s
  refine ⟨fun hn hbeyond => ?_, fun hbeyond => ?_, fun hbeyond => ?_, fun hbeyond => ?_⟩
  · have hspan : s.i.toNat + n.toNat > memSize := by unfold memSize; omega
    exact State.ifSpanFits_faultRecorded _ hn hspan (toNat_formatXYN 0xD x y n)
  · exact State.ifSpanFits_faultRecorded _ (by decide) (Nat.lt_succ_of_le hbeyond) (toNat_formatX_familyF x 0x33)
  · exact State.ifSpanFits_faultRecorded _ x.val.succ_pos (Nat.lt_succ_of_le hbeyond) (toNat_formatX_familyF x 0x55)
  · exact State.ifSpanFits_faultRecorded _ x.val.succ_pos (Nat.lt_succ_of_le hbeyond) (toNat_formatX_familyF x 0x65)

/-- Settles O44: PC after the store is I, where the stored pair is the word fetched. -/
theorem storeIsSeenByNextFetch : Obligations.StoreIsSeenByNextFetch := by
  intro s i hm hf hw hi hpc hdecode
  have hfit : s.i.toNat + 1 < 4096 := by bv_omega
  have hfetch := fetchWord_storedPair hm hfit
  refine ⟨_, exec_storeRegs_of_fits hfit, step_of_ok ⟨hf, hw⟩ ?_ hdecode⟩
  rw [State.advance_mem, State.advance_pc, ← hi]
  exact hfetch

end Sys2Proof.Machine
end

section
/-! The decoder and the encoder undo each other, and the words the decoder refuses (30_encoding.md R91 to R95, R104). -/

namespace Sys2Proof

/-- The decoder undoes the encoder: every format gives its fields back. -/
theorem decodeWord_encode (i : Instr) : decodeWord (encode i) = .ok i := by
  cases i
  case cls | ret => rfl
  case ldReg | orReg | andReg | xorReg | addReg | subReg | shr | subn | shl =>
    simp [encode, decodeWord, decodeFamily8]
  case ldVxDt | ldVxK | ldDtVx | ldStVx | addI | ldF | ldB | storeRegs | loadRegs =>
    simp [encode, decodeWord, decodeFamilyF]
  all_goals simp [encode, decodeWord]

section fields

variable {w : Word} {f n : Nibble} {kk : Byte}

/-! A word whose fixed fields are known is its format with the other fields read off it. -/

theorem formatNNN_of_family (hf : fieldFamily w = f) : formatNNN f (fieldNNN w) = w :=
  hf ▸ formatNNN_fields w

theorem formatXKK_of_family (hf : fieldFamily w = f) : formatXKK f (fieldX w) (fieldKK w) = w :=
  hf ▸ formatXKK_fields w

theorem formatXKK_of_low (hf : fieldFamily w = f) (hkk : fieldKK w = kk) : formatXKK f (fieldX w) kk = w :=
  hkk ▸ formatXKK_of_family hf

theorem formatXYN_of_family (hf : fieldFamily w = f) : formatXYN f (fieldX w) (fieldY w) (fieldN w) = w :=
  hf ▸ formatXYN_fields w

theorem formatXYN_of_low (hf : fieldFamily w = f) (hn : fieldN w = n) : formatXYN f (fieldX w) (fieldY w) n = w :=
  hn ▸ formatXYN_of_family hf

end fields

section decoder

variable {w : Word} {i : Instr}

/-! What the decoder answers encodes to the word it read. -/

theorem encode_of_decodeFamily8 (hf : fieldFamily w = 0x8) (h : decodeFamily8 w = .ok i) : encode i = w := by
  unfold decodeFamily8 at h
  split_ifs at h <;> cases h <;> exact formatXYN_of_low hf ‹fieldN w = _›

theorem encode_of_decodeFamilyF (hf : fieldFamily w = 0xF) (h : decodeFamilyF w = .ok i) : encode i = w := by
  unfold decodeFamilyF at h
  split_ifs at h <;> cases h <;> exact formatXKK_of_low hf ‹fieldKK w = _›

theorem encode_of_decodeWord (h : decodeWord w = .ok i) : encode i = w := by
  rcases nibble_cases (fieldFamily w) with
    hf | hf | hf | hf | hf | hf | hf | hf | hf | hf | hf | hf | hf | hf | hf | hf <;>
  simp only [decodeWord, hf, BitVec.ofNat_eq_ofNat] at h
  · split_ifs at h with hcls hret <;> cases h
    exacts [hcls.symm, hret.symm]
  · cases h; exact formatNNN_of_family hf
  · cases h; exact formatNNN_of_family hf
  · cases h; exact formatXKK_of_family hf
  · cases h; exact formatXKK_of_family hf
  · split_ifs at h with hn; cases h; exact formatXYN_of_low hf hn
  · cases h; exact formatXKK_of_family hf
  · cases h; exact formatXKK_of_family hf
  · exact encode_of_decodeFamily8 hf h
  · split_ifs at h with hn; cases h; exact formatXYN_of_low hf hn
  · cases h; exact formatNNN_of_family hf
  · cases h; exact formatNNN_of_family hf
  · cases h; exact formatXKK_of_family hf
  · cases h; exact formatXYN_of_family hf
  · split_ifs at h with hskp hsknp <;> cases h
    exacts [formatXKK_of_low hf hskp, formatXKK_of_low hf hsknp]
  · exact encode_of_decodeFamilyF hf h

/-! What the decoder refuses, in the numbers of 30_encoding.md R104. -/

theorem decodeFamily8_error_iff :
    (∃ e, decodeFamily8 w = .error e) ↔
      [0x8, 0x9, 0xA, 0xB, 0xC, 0xD, 0xF].contains (fieldN w).toNat = true := by
  unfold decodeFamily8
  rcases nibble_cases (fieldN w) with hn | hn | hn | hn | hn | hn | hn | hn | hn | hn | hn | hn | hn | hn | hn | hn <;>
  simp [hn]

theorem decodeFamilyF_error_iff :
    (∃ e, decodeFamilyF w = .error e) ↔
      (!([0x07, 0x0A, 0x15, 0x18, 0x1E, 0x29, 0x33, 0x55, 0x65].contains (fieldKK w).toNat)) = true := by
  unfold decodeFamilyF
  split_ifs <;> simp_all [BitVec.toNat_eq]

/-- The families 1 to 4, 6, 7 and A to D refuse nothing; each other one tests the fields its line of R104 names. -/
theorem decodeWord_error_iff : (∃ e, decodeWord w = .error e) ↔ illegalWord w = true := by
  rcases nibble_cases (fieldFamily w) with
    hf | hf | hf | hf | hf | hf | hf | hf | hf | hf | hf | hf | hf | hf | hf | hf <;>
  simp only [illegalWord, ← toNat_fieldFamily, ← toNat_fieldN, ← toNat_fieldKK, decodeWord, hf,
    BitVec.ofNat_eq_ofNat, BitVec.toNat_ofNat, Nat.reducePow, Nat.reduceMod]
  · split_ifs <;> simp_all
  iterate 4 · simp
  · split_ifs <;> simp_all [BitVec.toNat_eq]
  iterate 2 · simp
  · exact decodeFamily8_error_iff
  · split_ifs <;> simp_all [BitVec.toNat_eq]
  iterate 4 · simp
  · split_ifs <;> simp_all [BitVec.toNat_eq]
  · exact decodeFamilyF_error_iff

end decoder

/-- Settles O4: the decoder undoes the encoder, and the bytes of a word are read back as that word. -/
theorem decodeOfEncode : Obligations.DecodeOfEncode := by
  intro i rest
  exact ⟨decodeWord_encode i, by rw [decodeBytes_bytesOfWord, decodeWord_encode]⟩

/-- Settles O5: the answer's format, filled with the fields read off the word, is the word. -/
theorem encodeOfDecode : Obligations.EncodeOfDecode := fun _ _ => encode_of_decodeWord

/-- Settles O7: family by family, as R104's table lists them. -/
theorem decoderRefusesExactlyIllegalWords : Obligations.DecoderRefusesExactlyIllegalWords :=
  fun _ => decodeWord_error_iff

/-- Settles O3: ten fixed words, decoded. -/
theorem sampleWordsDecode : Obligations.SampleWordsDecode := by
  unfold Obligations.SampleWordsDecode
  decide

end Sys2Proof
end

section
/-! The opcode table (30_encoding.md R96): the decoder accepts the words of its rows, and no word matches two. -/

namespace Sys2Proof

section table

variable {w m v : Word} {i : Instr}

/-! The fields of a word given as a number. -/

@[simp] theorem fieldFamily_ofNat (k : Nat) : fieldFamily (BitVec.ofNat 16 k) = BitVec.ofNat 4 (k / 0x1000) :=
  BitVec.eq_of_toNat_eq (by simp only [toNat_fieldFamily, BitVec.toNat_ofNat]; omega)

@[simp] theorem fieldN_ofNat (k : Nat) : fieldN (BitVec.ofNat 16 k) = BitVec.ofNat 4 k :=
  BitVec.eq_of_toNat_eq (by simp only [toNat_fieldN, BitVec.toNat_ofNat]; omega)

@[simp] theorem fieldKK_ofNat (k : Nat) : fieldKK (BitVec.ofNat 16 k) = BitVec.ofNat 8 k :=
  BitVec.eq_of_toNat_eq (by simp only [toNat_fieldKK, BitVec.toNat_ofNat]; omega)

/-! A field that the mask of a row keeps whole is fixed by a match (30_encoding.md R96). -/

theorem fieldFamily_of_masked (h : w &&& m = v) (hm : fieldFamily m = 0xF) : fieldFamily w = fieldFamily v := by
  have hand : fieldFamily (w &&& m) = fieldFamily w &&& fieldFamily m := BitVec.extractLsb'_and
  rw [← h, hand, hm]
  exact (and_ones_nibble _).symm

theorem fieldN_of_masked (h : w &&& m = v) (hm : fieldN m = 0xF) : fieldN w = fieldN v := by
  have hand : fieldN (w &&& m) = fieldN w &&& fieldN m := BitVec.extractLsb'_and
  rw [← h, hand, hm]
  exact (and_ones_nibble _).symm

theorem fieldKK_of_masked (h : w &&& m = v) (hm : fieldKK m = 0xFF) : fieldKK w = fieldKK v := by
  have hand : fieldKK (w &&& m) = fieldKK w &&& fieldKK m := BitVec.extractLsb'_and
  rw [← h, hand, hm]
  exact (and_ones_byte _).symm

/-- Every mask of 30_encoding.md R96 keeps the family. -/
theorem Instr.fieldFamily_row_mask (i : Instr) : fieldFamily i.row.mask = 0xF := by
  cases i <;> simp [Instr.row]

theorem exists_decodeWord_of_matchesWord (h : i.row.matchesWord w = true) : ∃ j, decodeWord w = .ok j := by
  have hrow : w &&& i.row.mask = i.row.value := eq_of_beq h
  have hf : fieldFamily w = fieldFamily i.row.value := fieldFamily_of_masked hrow i.fieldFamily_row_mask
  cases i
  case cls => exact ⟨.cls, (BitVec.and_allOnes.symm.trans hrow : w = 0x00E0) ▸ rfl⟩
  case ret => exact ⟨.ret, (BitVec.and_allOnes.symm.trans hrow : w = 0x00EE) ▸ rfl⟩
  case seReg | sneReg =>
    have hn := fieldN_of_masked hrow (by simp [Instr.row])
    simp [decodeWord, hf, hn, Instr.row]
  case ldReg | orReg | andReg | xorReg | addReg | subReg | shr | subn | shl =>
    have hn := fieldN_of_masked hrow (by simp [Instr.row])
    simp [decodeWord, decodeFamily8, hf, hn, Instr.row]
  case skp | sknp =>
    have hkk := fieldKK_of_masked hrow (by simp [Instr.row])
    simp [decodeWord, hf, hkk, Instr.row]
  case ldVxDt | ldVxK | ldDtVx | ldStVx | addI | ldF | ldB | storeRegs | loadRegs =>
    have hkk := fieldKK_of_masked hrow (by simp [Instr.row])
    simp [decodeWord, decodeFamilyF, hf, hkk, Instr.row]
  all_goals simp [decodeWord, hf, Instr.row]

open Laws.EncodesToRow in
/-- The encoding of every instruction matches its row. -/
theorem encode_matchesRow (i : Instr) : i.row.matchesWord (encode i) = true := by
  cases i
  exacts [cls, ret, jp _, call _, seByte _ _, sneByte _ _, seReg _ _, ldByte _ _, addByte _ _, ldReg _ _, orReg _ _,
    andReg _ _, xorReg _ _, addReg _ _, subReg _ _, shr _ _, subn _ _, shl _ _, sneReg _ _, ldI _, jpV0 _, rnd _ _,
    drw _ _ _, skp _, sknp _, ldVxDt _, ldVxK _, ldDtVx _, ldStVx _, addI _, ldF _, ldB _, storeRegs _, loadRegs _]

theorem matchesWord_of_decodeWord (h : decodeWord w = .ok i) : i.row.matchesWord w = true :=
  encode_of_decodeWord h ▸ encode_matchesRow i

theorem Instr.row_mem_rows (i : Instr) : i.row ∈ rows := by
  cases i <;> simp [rows, Instr.representatives, Instr.row]

theorem legalWord_iff : legalWord w = true ↔ ∃ i : Instr, i.row.matchesWord w = true := by
  simp only [legalWord, List.any_eq_true]
  refine ⟨fun ⟨r, hr, h⟩ => ?_, fun ⟨i, h⟩ => ⟨i.row, i.row_mem_rows, h⟩⟩
  obtain ⟨i, -, rfl⟩ := List.mem_map.mp hr
  exact ⟨i, h⟩

/-- Two rows that ask different values of a bit both fix. -/
def Row.Clash (r r' : Row) : Prop := r.value &&& r'.mask ≠ r'.value &&& r.mask

theorem Row.Clash.disjoint {r r' : Row} (h : r.Clash r') :
    ¬ (r.matchesWord w = true ∧ r'.matchesWord w = true) := by
  rintro ⟨hr, hr'⟩
  have hr : w &&& r.mask = r.value := eq_of_beq hr
  have hr' : w &&& r'.mask = r'.value := eq_of_beq hr'
  apply h
  rw [← hr, ← hr', BitVec.and_assoc, BitVec.and_assoc, BitVec.and_comm r.mask]

theorem rows_clash : rows.Pairwise Row.Clash := by unfold Row.Clash; decide

end table

/-- Settles O6: a decoded word is the encoding of the answer, which matches the answer's row; a word of a row has the
fields that lead the decoder to it. -/
theorem decoderAcceptsExactlyTableRows : Obligations.DecoderAcceptsExactlyTableRows := by
  intro w
  rw [legalWord_iff]
  exact ⟨⟨fun ⟨i, h⟩ => ⟨i, matchesWord_of_decodeWord h⟩, fun ⟨_, h⟩ => exists_decodeWord_of_matchesWord h⟩,
    fun _ => matchesWord_of_decodeWord⟩

/-- Settles O8: any two of the 34 rows ask different values of a bit that both fix. -/
theorem tableRowsPairwiseDisjoint : Obligations.TableRowsPairwiseDisjoint :=
  rows_clash.imp fun h _ => h.disjoint

end Sys2Proof
end

section
/-! The word a step fetches (30_encoding.md R90, R91): the one memory holds at PC, or the one `withFetchWord` stores. -/

namespace Sys2Proof.Machine

/-- A word stored high byte first is fetched back (20_memory.md R65, R66). -/
theorem fetchWord_writeBytes_bytesOfWord {m : Memory} {pc : Nat} (w : Word) (hm : m.wf = true)
    (hpc : pc + 1 < memSize) : fetchWord (m.writeBytes pc (bytesOfWord w)) pc = some w := by
  have hspan : pc + (bytesOfWord w).length ≤ memSize := hpc
  have hhi := Memory.read_writeBytes_inside (bytesOfWord w) m pc 0 (by decide : 0 < 2) hm hspan
  have hlo := Memory.read_writeBytes_inside (bytesOfWord w) m pc 1 (by decide : 1 < 2) hm hspan
  refine (fetchWord_some_iff _ _ _).mpr ⟨by unfold memSize at hpc; omega, ?_⟩
  exact (wordOfBytes_bytesOfWord w).symm.trans (congrArg₂ wordOfBytes hhi.symm hlo.symm)

theorem decodeTableWord_eq_some {nbits w : Nat} {i : Instr} (h : decodeTableWord nbits w = some i) :
    decodeWord (BitVec.ofNat 16 (w % 2 ^ nbits)) = .ok i := by
  have hbytes := decodeBytes_bytesOfWord (BitVec.ofNat 16 (w % 2 ^ nbits)) []
  rw [List.append_nil] at hbytes
  rw [decodeTableWord, hbytes] at h
  cases hd : decodeWord (BitVec.ofNat 16 (w % 2 ^ nbits)) <;> simp_all

theorem State.withFetchWord_running (s : State) (nbits w : Nat) : (s.withFetchWord nbits w).Running := ⟨rfl, rfl⟩

theorem State.withFetchWord_fetches {s : State} (nbits w : Nat) (hm : s.mem.wf = true) :
    fetchWord (s.withFetchWord nbits w).mem (s.withFetchWord nbits w).pc.toNat =
      some (BitVec.ofNat 16 (w % 2 ^ nbits)) := by
  refine fetchWord_writeBytes_bytesOfWord _ hm ?_
  split
  · assumption
  · decide

/-- Settles O1: PC is fetchable, so the word fetched is the one of the two bytes at PC. -/
theorem stepRunsDecodedInstruction : Obligations.StepRunsDecodedInstruction :=
  fun _ _ hf hw hpc hi => step_of_ok ⟨hf, hw⟩ ((fetchWord_some_iff _ _ _).mpr ⟨hpc, rfl⟩) hi

/-- Settles O9: the stored word is fetched back, in a state that fetches. -/
theorem withFetchWordRunsNext : Obligations.WithFetchWordRunsNext :=
  fun s w _ hm hi => step_of_ok (s.withFetchWord_running 16 w) (State.withFetchWord_fetches 16 w hm)
    (decodeTableWord_eq_some hi)

end Sys2Proof.Machine
end

section
/-! Control flow (40_control_flow.md R130 to R139): jumps, the subroutine stack, and the skips. -/

namespace Sys2Proof

/-! ### Words given as numbers (30_encoding.md R92) -/

theorem decodeWord_ofNat {i : Instr} {k : Nat} (h : (encode i).toNat = k) : decodeWord (BitVec.ofNat 16 k) = .ok i := by
  rw [← h, BitVec.ofNat_toNat, BitVec.setWidth_eq, decodeWord_encode]

end Sys2Proof

namespace Sys2Proof.Machine

section controlFlow

variable {i : Instr} {s t : State}

/-! ### Exact frames -/

/-- An instruction that cannot fault changes only the parts it writes. -/
theorem exec_frame_of_not_mayFault (h : exec i s = .next t) (hmay : i.mayFault = false) :
    UnchangedBut i.writes s t :=
  (exec_fault_or_frame h).resolve_left fun hfault => by simp [hmay] at hfault

/-- An instruction that changed anything beside the fault record did not fault (60_exceptions.md R256), and changed only
the parts it writes. -/
theorem exec_frame_of_changed {p : Part} (h : exec i s = .next t) (hp : p ≠ .fault) (hne : ¬ SamePart s t p) :
    UnchangedBut i.writes s t := by
  refine (exec_fault_or_frame h).resolve_left ?_
  rintro ⟨-, f, rfl⟩
  exact hne (s.raise_frame f _ p (by simpa using hp))

/-! ### Jump targets -/

theorem zextAddr_toNat (nnn : Addr12) : (zextAddr nnn).toNat = nnn.toNat :=
  BitVec.toNat_setWidth_of_le (by decide)

theorem zextByte_toNat (b : Byte) : (zextByte b).toNat = b.toNat :=
  BitVec.toNat_setWidth_of_le (by decide)

/-- The sum of JP V0 does not wrap (40_control_flow.md R139). -/
theorem zextAddr_add_zextByte_toNat (nnn : Addr12) (b : Byte) :
    (zextAddr nnn + zextByte b).toNat = nnn.toNat + b.toNat := by
  have hfit : nnn.toNat + b.toNat < 2 ^ 16 := by omega
  rw [BitVec.toNat_add, zextAddr_toNat, zextByte_toNat, Nat.mod_eq_of_lt hfit]

/-! ### The two outcomes of CALL and of RET within the stack -/

theorem exec_call_of_room (nnn : Addr12) (hroom : s.sp.toNat < 16) :
    exec (.call nnn) s =
      .next { s with stack := s.stack.set s.sp.toNat (s.pc + 2), sp := s.sp + 1, pc := zextAddr nnn } :=
  dif_pos hroom

theorem exec_call_of_full (nnn : Addr12) (hfull : s.sp.toNat = 16) :
    exec (.call nnn) s = .next (s.raise .stackOverflow (encode (.call nnn))) :=
  (dif_neg hfull.not_lt).trans (if_pos (BitVec.eq_of_toNat_eq hfull))

theorem exec_ret_of_held {k : Fin 16} (hk : s.sp.toNat = k.val + 1) :
    exec .ret s = .next { s with sp := s.sp - 1, pc := s.stack[k] } := by
  have hne : s.sp ≠ 0 := fun h => by simp [h] at hk
  have htop : s.sp.toNat - 1 = k.val := by omega
  refine (if_neg hne).trans ((dif_pos (htop ▸ k.isLt)).trans ?_)
  simp [htop]

theorem exec_ret_of_empty (hempty : s.sp.toNat = 0) :
    exec .ret s = .next (s.raise .stackUnderflow (encode .ret)) :=
  if_pos (BitVec.eq_of_toNat_eq hempty)

/-! ### A skip on a comparison -/

theorem State.skipIf_beq_onlyPc (s : State) (a b : Byte) :
    OnlyPc s (s.skipIf (a == b)) (if a = b then s.pc + 4 else s.pc + 2) := by
  simpa using s.skipIf_onlyPc (a == b)

theorem State.skipIf_bne_onlyPc (s : State) (a b : Byte) :
    OnlyPc s (s.skipIf (a != b)) (if a = b then s.pc + 2 else s.pc + 4) := by
  simpa [ite_not] using s.skipIf_onlyPc (a != b)

end controlFlow

/-- Settles O22: JP cannot fault and writes PC alone. -/
theorem jumpSetsPc : Obligations.JumpSetsPc := fun nnn _ =>
  ⟨decodeWord_ofNat (toNat_formatNNN 0x1 nnn), _, rfl, zextAddr_toNat nnn,
    exec_frame_of_not_mayFault (i := .jp nnn) rfl rfl⟩

/-- Settles O23: with room CALL moves SP, so it did not fault; on a full stack it raises. -/
theorem callPushesReturnAddress : Obligations.CallPushesReturnAddress := by
  intro nnn s
  have hword : (encode (.call nnn)).toNat = 0x2000 + nnn.toNat := toNat_formatNNN 0x2 nnn
  refine ⟨decodeWord_ofNat hword, fun hroom => ?_, fun hfull => ?_⟩
  · have hexec := exec_call_of_room nnn hroom
    have hsp : (s.sp + 1).toNat = s.sp.toNat + 1 := by bv_omega
    have hne : s.sp + 1 ≠ s.sp := by bv_omega
    refine ⟨_, hexec, zextAddr_toNat nnn, hsp, fun k => ?_, ?_⟩
    · simp [Vector.getElem_set, eq_comm]
    · exact (exec_frame_of_changed (p := .sp) hexec (by decide) hne).mono (by simp [Instr.writes])
  · exact ⟨_, exec_call_of_full nnn hfull, hword ▸ s.raise_recorded .stackOverflow (encode (.call nnn))⟩

/-- Settles O24: with a return address held RET moves SP, so it did not fault; on an empty stack it raises. -/
theorem returnPopsPc : Obligations.ReturnPopsPc := by
  intro s
  refine ⟨decodeWord_encode .ret, fun k hk => ?_, fun hempty => ?_⟩
  · have hexec := exec_ret_of_held hk
    have hsp : (s.sp - 1).toNat = s.sp.toNat - 1 := by bv_omega
    have hne : s.sp - 1 ≠ s.sp := by bv_omega
    refine ⟨_, hexec, rfl, hsp, ?_⟩
    exact (exec_frame_of_changed (p := .sp) hexec (by decide) hne).mono (by simp [Instr.writes])
  · exact ⟨_, exec_ret_of_empty hempty, s.raise_recorded .stackUnderflow (encode .ret)⟩

/-- Settles O25: what CALL pushes is what RET pops, and the two moves of SP cancel. -/
theorem callThenReturnResumes : Obligations.CallThenReturnResumes := by
  intro nnn s hroom
  obtain ⟨-, hcall, -⟩ := callPushesReturnAddress nnn s
  obtain ⟨t, htexec, -, htsp, htstack, htframe⟩ := hcall hroom
  obtain ⟨-, hret, -⟩ := returnPopsPc t
  obtain ⟨u, huexec, hupc, husp, huframe⟩ := hret ⟨s.sp.toNat, hroom⟩ htsp
  have hstack : u.stack = t.stack := huframe .stack (by decide)
  have hsp : u.sp = s.sp := BitVec.eq_of_toNat_eq (by omega)
  refine ⟨t, u, htexec, huexec, ?_, fun k hk => ?_, fun p hp => ?_⟩
  · rw [hupc, htstack, if_pos rfl]
  · rw [hstack, htstack, if_neg hk]
  · rcases eq_or_ne p .sp with rfl | hpsp
    · exact hsp
    · exact (htframe.trans (huframe.mono (by simp))) p (by simp_all)

/-- Settles O26: both are a skip on a comparison of V[x] with the byte. -/
theorem skipOnImmediate : Obligations.SkipOnImmediate := fun x kk s =>
  ⟨decodeWord_ofNat (toNat_formatXKK 0x3 x kk), decodeWord_ofNat (toNat_formatXKK 0x4 x kk),
    ⟨_, rfl, s.skipIf_beq_onlyPc (s.reg x) kk⟩, ⟨_, rfl, s.skipIf_bne_onlyPc (s.reg x) kk⟩⟩

/-- Settles O27: both are a skip on a comparison of V[x] with V[y]. -/
theorem skipOnRegisters : Obligations.SkipOnRegisters := fun x y s =>
  ⟨decodeWord_ofNat (toNat_formatXYN 0x5 x y 0x0), decodeWord_ofNat (toNat_formatXYN 0x9 x y 0x0),
    ⟨_, rfl, s.skipIf_beq_onlyPc (s.reg x) (s.reg y)⟩, ⟨_, rfl, s.skipIf_bne_onlyPc (s.reg x) (s.reg y)⟩⟩

/-- Settles O28: JP V0 cannot fault and writes PC alone, and the sum fits in 16 bits. -/
theorem jumpPlusV0 : Obligations.JumpPlusV0 := fun nnn s =>
  ⟨_, rfl, zextAddr_add_zextByte_toNat nnn (s.reg 0),
    exec_frame_of_not_mayFault (i := .jpV0 nnn) rfl rfl⟩

end Sys2Proof.Machine
end

section
/-! Arithmetic and logic (41_arithmetic_logic.md R150 to R166): a result in V[x], with or without a flag in VF. -/

namespace Sys2Proof.Machine

/-- A word of format XYN in family 8 (30_encoding.md R92). -/
theorem toNat_formatXYN_family8 (x y : Reg) (n : Nibble) :
    (formatXYN 0x8 x y n).toNat = 0x8000 + n.toNat + 0x100 * x.val + 0x10 * y.val := by
  have hword := toNat_formatXYN 0x8 x y n
  have hfamily : (0x8 : Nibble).toNat = 8 := rfl
  omega

/-- A result and a flag written as bytes, given as numbers. -/
theorem State.setResultFlag_regThenFlag_of_toNat {s : State} {x : Reg} {res flag : Byte} {result f : Nat}
    (hres : res.toNat = result) (hflag : flag.toNat = f) :
    RegThenFlag s (s.setResultFlag x res flag).advance x result f :=
  hres ▸ hflag ▸ s.setResultFlag_advance_regThenFlag x res flag

/-! ### Flags and results as numbers (R150, R157 to R163) -/

theorem carryFlag_toNat (a b : Byte) : (carryFlag a b).toNat = if a.toNat + b.toNat > 255 then 1 else 0 := by
  simp [carryFlag, flagByte_toNat]

theorem notBorrowFlag_toNat (a b : Byte) : (notBorrowFlag a b).toNat = if a.toNat ≥ b.toNat then 1 else 0 := by
  simp [notBorrowFlag, flagByte_toNat]

/-- A difference of bytes, 256 being added if it is negative. -/
theorem byte_sub_toNat (a b : Byte) :
    (a - b).toNat = if a.toNat ≥ b.toNat then a.toNat - b.toNat else a.toNat + 256 - b.toNat := by
  split <;> bv_omega

theorem byte_ushiftRight_one_toNat (a : Byte) : (a >>> 1).toNat = a.toNat / 2 := by
  rw [BitVec.toNat_ushiftRight, Nat.shiftRight_one]

theorem byte_shiftLeft_one_toNat (a : Byte) : (a <<< 1).toNat = 2 * a.toNat % 256 := by
  rw [BitVec.toNat_shiftLeft, Nat.shiftLeft_eq, pow_one, Nat.mul_comm]

/-! ### The instructions -/

/-- Settles O29: both write one register and advance. -/
theorem loadRegister : Obligations.LoadRegister := fun x y kk s =>
  ⟨decodeWord_ofNat (toNat_formatXKK 0x6 x kk), decodeWord_ofNat (toNat_formatXYN 0x8 x y 0x0),
    ⟨_, rfl, s.setReg_advance_onlyReg x kk⟩, ⟨_, rfl, s.setReg_advance_onlyReg x (s.reg y)⟩⟩

/-- Settles O30: one register is written, with a sum of bytes. -/
theorem addImmediateWraps : Obligations.AddImmediateWraps := fun x kk s =>
  ⟨_, _, rfl, s.setReg_advance_onlyReg x (s.reg x + kk), BitVec.toNat_add (s.reg x) kk⟩

/-- Settles O31: one register is written, with a bitwise combination. -/
theorem bitwiseLeavesVf : Obligations.BitwiseLeavesVf := fun x y s =>
  ⟨⟨_, _, rfl, s.setReg_advance_onlyReg x (s.reg x ||| s.reg y), fun _ _ => BitVec.getLsbD_or⟩,
    ⟨_, _, rfl, s.setReg_advance_onlyReg x (s.reg x &&& s.reg y), fun _ _ => BitVec.getLsbD_and⟩,
    ⟨_, _, rfl, s.setReg_advance_onlyReg x (s.reg x ^^^ s.reg y), fun _ _ => BitVec.getLsbD_xor⟩⟩

/-- Settles O32: the flag of a sum is its carry out. -/
theorem addSetsCarry : Obligations.AddSetsCarry := fun x y s =>
  ⟨decodeWord_ofNat (toNat_formatXYN_family8 x y 0x4), _, rfl,
    State.setResultFlag_regThenFlag_of_toNat (BitVec.toNat_add (s.reg x) (s.reg y)) (carryFlag_toNat _ _)⟩

/-- Settles O33: the flag of V[x] - V[y] is 1 where it is not negative. -/
theorem subSetsNotBorrow : Obligations.SubSetsNotBorrow := fun x y s =>
  ⟨decodeWord_ofNat (toNat_formatXYN_family8 x y 0x5), _, rfl,
    State.setResultFlag_regThenFlag_of_toNat (byte_sub_toNat (s.reg x) (s.reg y)) (notBorrowFlag_toNat _ _)⟩

/-- Settles O34: as for SUB with the operands exchanged, into V[x]. -/
theorem subnSetsNotBorrow : Obligations.SubnSetsNotBorrow := fun x y s =>
  ⟨decodeWord_ofNat (toNat_formatXYN_family8 x y 0x7), _, rfl,
    State.setResultFlag_regThenFlag_of_toNat (byte_sub_toNat (s.reg y) (s.reg x)) (notBorrowFlag_toNat _ _)⟩

/-- Settles O35, for either value of SHIFT_USES_VY: the source is halved, and its remainder is the flag. -/
theorem shiftRightByOne : Obligations.ShiftRightByOne := fun x y s =>
  ⟨decodeWord_ofNat (toNat_formatXYN_family8 x y 0x6), _, rfl,
    State.setResultFlag_regThenFlag_of_toNat (byte_ushiftRight_one_toNat (shiftSource s x y)) (shrFlag_toNat _)⟩

/-- Settles O36, for either value of SHIFT_USES_VY: the source is doubled modulo 256, and its bit 7 is the flag. -/
theorem shiftLeftByOne : Obligations.ShiftLeftByOne := fun x y s =>
  ⟨decodeWord_ofNat (toNat_formatXYN_family8 x y 0xE), _, rfl,
    State.setResultFlag_regThenFlag_of_toNat (byte_shiftLeft_one_toNat (shiftSource s x y)) (shlFlag_toNat _)⟩

/-- Settles O37: one register is written, with the masked draw; RND cannot fault, so all else it writes is PC and the
count of draws. -/
theorem randomByteIsMasked : Obligations.RandomByteIsMasked := by
  intro x kk s
  obtain ⟨hreg, hpc, hregs, -⟩ := s.setReg_advance_onlyReg x (Config.rnd s.draws &&& kk)
  have hframe := exec_frame_of_not_mayFault (i := .rnd x kk) (s := s) rfl rfl
  exact ⟨_, _, rfl, hreg, hregs, hpc, rfl, hframe.mono (by simp [Instr.writes]), fun _ _ => BitVec.getLsbD_and⟩

end Sys2Proof.Machine
end

section
/-! Memory and the index register (42_memory_index.md R180 to R186): what I receives, and the blocks that move between
memory and the registers. -/

namespace Sys2Proof.Machine

section memoryIndex

variable {i : Instr} {s t : State} {x : Reg}

/-- An instruction that advanced PC did not fault (60_exceptions.md R256), and changed only the parts it writes. -/
theorem exec_frame_of_advanced (h : exec i s = .next t) (hpc : t.pc = s.pc + 2) : UnchangedBut i.writes s t := by
  have hne : t.pc ≠ s.pc := by bv_omega
  exact exec_frame_of_changed (p := .pc) h (by decide) hne

/-! ### The values I receives -/

/-- The sum of ADD I wraps at 65536 (42_memory_index.md R182, decision D14). -/
theorem add_zextByte_toNat (w : Word) (b : Byte) : (w + zextByte b).toNat = (w.toNat + b.toNat) % 65536 := by
  rw [BitVec.toNat_add, zextByte_toNat]

theorem lowNibble_val (b : Byte) : (lowNibble b).val = b.toNat % 16 := by
  simp [lowNibble]

/-- A digit's sprite starts 5 bytes after the one before it, the first at FONT_BASE = 0 (42_memory_index.md R186). -/
theorem fontAddress_toNat (d : Reg) : (fontAddress d).toNat = 5 * d.val := by
  have hfit : fontBase + 5 * d.val < 2 ^ 16 := by unfold fontBase; omega
  rw [fontAddress, BitVec.toNat_ofNat, Nat.mod_eq_of_lt hfit, fontBase, Nat.zero_add]

/-! ### Bytes stored through I -/

/-- A store of bytes that then advances changes no byte but those it writes. -/
theorem memUnchangedOutside_writeBytes (s : State) (base : Nat) (bs : List Byte) :
    MemUnchangedOutside base bs.length s { s with mem := s.mem.writeBytes base bs }.advance :=
  Memory.read_writeBytes_outside bs s.mem base

/-- LD B,Vx completes where its third byte exists (42_memory_index.md R183). -/
theorem exec_ldB_of_fits (hfit : s.i.toNat + 2 < 4096) :
    exec (.ldB x) s = .next { s with mem := s.mem.writeBytes s.i.toNat (bcdDigits (s.reg x)) }.advance :=
  s.ifSpanFits_fits _ _ _ ((spanFits_iff _ _).mpr (.inr hfit))

/-- The three digits, stored as bytes, read as the digits themselves: each is below 256 (42_memory_index.md R183). -/
theorem toNat_read_writeBytes_bcdDigits {m : Memory} {a : Nat} (b : Byte) (hm : m.wf = true) (hfit : a + 2 < 4096) :
    ((m.writeBytes a (bcdDigits b)).read a).toNat = b.toNat / 100 ∧
    ((m.writeBytes a (bcdDigits b)).read (a + 1)).toNat = b.toNat / 10 % 10 ∧
    ((m.writeBytes a (bcdDigits b)).read (a + 2)).toNat = b.toNat % 10 := by
  have hb : b.toNat < 256 := b.isLt
  have hread (k : Nat) (hk : k < (bcdDigits b).length) :
      (m.writeBytes a (bcdDigits b)).read (a + k) = (bcdDigits b)[k] :=
    Memory.read_writeBytes_inside (bcdDigits b) m a k hk hm hfit
  have h0 := hread 0 (by decide : 0 < 3)
  have h1 := hread 1 (by decide : 1 < 3)
  have h2 := hread 2 (by decide : 2 < 3)
  exact ⟨(congrArg BitVec.toNat h0).trans (Nat.mod_eq_of_lt (by omega)),
    (congrArg BitVec.toNat h1).trans (Nat.mod_eq_of_lt (by omega)),
    (congrArg BitVec.toNat h2).trans (Nat.mod_eq_of_lt (by omega))⟩

/-! ### Registers loaded through I -/

/-- LD Vx,[I] completes where its last byte exists (42_memory_index.md R185). -/
theorem exec_loadRegs_of_fits (hfit : s.i.toNat + x.val < 4096) :
    exec (.loadRegs x) s = .next { s with v := loadBlock s.mem s.i.toNat s.v (x.val + 1) }.advance :=
  s.ifSpanFits_fits _ _ _ ((spanFits_iff _ _).mpr (.inr hfit))

/-- What a register reads after LD Vx,[I] has completed: its byte of the block up to x, its old value above. -/
theorem reg_loadRegs (s : State) (x k : Reg) :
    ({ s with v := loadBlock s.mem s.i.toNat s.v (x.val + 1) } : State).reg k =
      if k ≤ x then s.mem.read (s.i.toNat + k.val) else s.reg k := by
  split
  next hle =>
    have hlt : k.val < x.val + 1 := Nat.lt_succ_of_le hle
    simp only [State.reg, loadBlock_getElem, if_pos hlt]
  next hgt => exact reg_loadRegs_of_lt (not_le.mp hgt)

end memoryIndex

end Sys2Proof.Machine

/-! The statements, outside `Machine`: there the names of two of them are the model's own. -/

namespace Sys2Proof

open Machine

/-- Settles O38: LD I cannot fault, and the address keeps its value in 16 bits. -/
theorem loadIndexImmediate : Obligations.LoadIndexImmediate := fun nnn _ =>
  ⟨decodeWord_ofNat (toNat_formatNNN 0xA nnn), _, rfl, zextAddr_toNat nnn, rfl,
    exec_frame_of_not_mayFault (i := .ldI nnn) rfl rfl⟩

/-- Settles O39: ADD I cannot fault, and VF is not among the parts it writes. -/
theorem addToIndexWraps : Obligations.AddToIndexWraps := fun x s =>
  ⟨_, rfl, add_zextByte_toNat s.i (s.reg x), rfl, exec_frame_of_not_mayFault (i := .addI x) rfl rfl⟩

/-- Settles O40: LD F cannot fault, and the digit is the low nibble of V[x]. -/
theorem fontAddress : Obligations.FontAddress := fun x s =>
  ⟨_, rfl, (fontAddress_toNat _).trans (congrArg (5 * ·) (lowNibble_val (s.reg x))), rfl,
    exec_frame_of_not_mayFault (i := .ldF x) rfl rfl⟩

/-- Settles O41: the three bytes are the digits, and the store advanced, so it did not fault. -/
theorem bcdStoresDigits : Obligations.BcdStoresDigits := by
  intro x s hm hfit
  have hexec := exec_ldB_of_fits (x := x) hfit
  obtain ⟨hhundreds, htens, hones⟩ := toNat_read_writeBytes_bcdDigits (s.reg x) hm hfit
  exact ⟨_, hexec, hhundreds, htens, hones, memUnchangedOutside_writeBytes s s.i.toNat (bcdDigits (s.reg x)), rfl,
    exec_frame_of_advanced hexec rfl⟩

/-- Settles O42: each byte of the block is its register, and the store advanced, so it did not fault. -/
theorem storeBlock : Obligations.StoreBlock := by
  intro x s hm hfit
  have hexec := exec_storeRegs_of_fits hfit
  have houtside := memUnchangedOutside_writeBytes s s.i.toNat (blockRegs s x)
  rw [blockRegs_length] at houtside
  exact ⟨_, hexec, fun _ => read_writeBytes_blockRegs hm hfit, houtside, rfl, exec_frame_of_advanced hexec rfl⟩

/-- Settles O43: each register up to x is its byte of the block, and the load advanced, so it did not fault. -/
theorem loadBlock : Obligations.LoadBlock := by
  intro x s hfit
  have hexec := exec_loadRegs_of_fits hfit
  exact ⟨_, hexec, reg_loadRegs s x, rfl, exec_frame_of_advanced hexec rfl⟩

end Sys2Proof
end

section
/-! Display (43_display.md R200 to R203): the rasterizer inverts each covered pixel once. -/

namespace Sys2Proof.Machine

/-- From canvas `c` to canvas `c'` exactly the pixels of `P` were inverted, and the collision flag rose if one of them was
on (43_display.md R203). -/
structure Canvas.Inverts (P : Nat → Nat → Prop) (c c' : Canvas) : Prop where
  inside : ∀ px py, P px py → px < 64 ∧ py < 32
  inverted : ∀ px py, P px py → pixel c'.fb px py = !pixel c.fb px py
  kept : ∀ px py, px < 64 → py < 32 → ¬ P px py → pixel c'.fb px py = pixel c.fb px py
  collides : c'.collision = true ↔ c.collision = true ∨ ∃ px py, P px py ∧ pixel c.fb px py = true

section display

variable {c c' c'' : Canvas} {P Q : Nat → Nat → Prop} {x y : Reg} {n : Nibble} {s t : State}

/-! ### Composing drawings -/

/-- A drawing with no pixel in it. -/
theorem Canvas.Inverts.refl (c : Canvas) (hP : ∀ px py, ¬ P px py) : Canvas.Inverts P c c where
  inside px py h := absurd h (hP px py)
  inverted px py h := absurd h (hP px py)
  kept _ _ _ _ _ := rfl
  collides := by simp [hP]

/-- Two drawings that share no pixel make one drawing: the second sees its own pixels as they were before the first. -/
theorem Canvas.Inverts.trans (h : Canvas.Inverts P c c') (h' : Canvas.Inverts Q c' c'')
    (hdisjoint : ∀ px py, P px py → ¬ Q px py) : Canvas.Inverts (fun px py => P px py ∨ Q px py) c c'' := by
  have hunseen (px py) (hQ : Q px py) : pixel c'.fb px py = pixel c.fb px py :=
    h.kept px py (h'.inside px py hQ).1 (h'.inside px py hQ).2 fun hP => hdisjoint px py hP hQ
  refine ⟨fun px py => ?_, fun px py => ?_, fun px py hx hy hPQ => ?_, ?_⟩
  · rintro (hP | hQ)
    exacts [h.inside px py hP, h'.inside px py hQ]
  · rintro (hP | hQ)
    · obtain ⟨hx, hy⟩ := h.inside px py hP
      rw [h'.kept px py hx hy (hdisjoint px py hP), h.inverted px py hP]
    · rw [h'.inverted px py hQ, hunseen px py hQ]
  · obtain ⟨hP, hQ⟩ := not_or.mp hPQ
    rw [h'.kept px py hx hy hQ, h.kept px py hx hy hP]
  · have hsecond : (∃ px py, Q px py ∧ pixel c'.fb px py = true) ↔ ∃ px py, Q px py ∧ pixel c.fb px py = true :=
      exists₂_congr fun px py => and_congr_right fun hQ => by rw [hunseen px py hQ]
    rw [h'.collides, h.collides, hsecond]
    simp only [or_and_right, exists_or, or_assoc]

/-- Drawings one after the other, no two of which share a pixel, make one drawing. -/
theorem Canvas.Inverts.iterate {f : Nat → Canvas} {R : Nat → Nat → Nat → Prop} (m : Nat)
    (hstep : ∀ k < m, Canvas.Inverts (R k) (f k) (f (k + 1)))
    (hdisjoint : ∀ j k, j < k → k < m → ∀ px py, R j px py → ¬ R k px py) :
    Canvas.Inverts (fun px py => ∃ k < m, R k px py) (f 0) (f m) := by
  induction m with
  | zero => exact .refl _ fun _ _ => by simp
  | succ m ih =>
    have hprefix := ih (fun k hk => hstep k (by omega)) fun j k hjk hk => hdisjoint j k hjk (by omega)
    have hall := hprefix.trans (hstep m m.lt_succ_self)
      fun px py ⟨j, hj, hR⟩ => hdisjoint j m hj m.lt_succ_self px py hR
    simpa only [Nat.exists_lt_succ_right] using hall

/-! ### The rasterizer's loop: one pixel, one row, all rows (43_display.md R203) -/

/-- One pixel of a sprite inverts that pixel, its coordinates wrapped, if its bit is 1. -/
theorem plot_inverts (c : Canvas) (bit : Bool) (x y : Nat) :
    Canvas.Inverts (fun px py => x % 64 = px ∧ y % 32 = py ∧ bit = true) c (plot c bit x y) := by
  cases bit with
  | false => exact .refl c fun _ _ h => by simp at h
  | true =>
    refine ⟨?_, ?_, fun px py hx hy h => ?_, ?_⟩
    · rintro px py ⟨rfl, rfl, -⟩
      exact ⟨Nat.mod_lt x (by decide), Nat.mod_lt y (by decide)⟩
    · rintro px py ⟨rfl, rfl, -⟩
      simp [plot, pixel_flipPixel]
    · have hother : ¬ (px % 64 = x % 64 ∧ py % 32 = y % 32) := fun ⟨hpx, hpy⟩ => h ⟨by omega, by omega, rfl⟩
      simp [plot, pixel_flipPixel, hother]
    · simp [plot, pixel]

/-- One row of a sprite: its 8 columns fall on 8 different pixels. -/
theorem drawRow_inverts (c : Canvas) (b : Byte) (x0 y : Nat) :
    Canvas.Inverts (fun px py => ∃ col < 8, (x0 + col) % 64 = px ∧ y % 32 = py ∧ b.getLsbD (7 - col) = true) c
      (drawRow c b x0 y) := by
  refine .iterate (f := fun k => (List.range k).foldl (fun c col => plot c (b.getLsbD (7 - col)) (x0 + col) y) c) 8
    (fun k _ => ?_) fun j k hjk hk px py ⟨hj, _⟩ ⟨hk', _⟩ => by omega
  simpa only [List.range_succ, List.foldl_append, List.foldl_cons, List.foldl_nil] using plot_inverts _ _ _ _

/-- The rows of a sprite before its last one, then the last. -/
theorem drawRows_append_singleton (c : Canvas) (x0 y : Nat) (bs : List Byte) (b : Byte) :
    drawRows c x0 y (bs ++ [b]) = drawRow (drawRows c x0 y bs) b x0 (y + bs.length) := by
  induction bs generalizing c y with
  | nil => rfl
  | cons b' bs ih => simp only [List.cons_append, drawRows_cons, ih, List.length_cons, Nat.add_assoc, Nat.add_comm 1]

/-- The rows of a sprite in memory: no more than 32 rows fall on different rows of the framebuffer. -/
theorem drawRows_spriteBytes_inverts (c : Canvas) (x0 y0 : Nat) (m : Memory) (base rows : Nat) (hrows : rows ≤ 32) :
    Canvas.Inverts (fun px py => ∃ r < rows, ∃ col < 8, (x0 + col) % 64 = px ∧ (y0 + r) % 32 = py ∧
      (m.read (base + r)).getLsbD (7 - col) = true) c (drawRows c x0 y0 (spriteBytes m base rows)) := by
  refine .iterate (f := fun k => drawRows c x0 y0 (spriteBytes m base k)) rows (fun k _ => ?_)
    fun j k hjk hk px py ⟨_, _, _, hj, _⟩ ⟨_, _, _, hk', _⟩ => by omega
  have hlast : spriteBytes m base (k + 1) = spriteBytes m base k ++ [m.read (base + k)] := by
    simp [spriteBytes, List.range_succ]
  have hlen : (spriteBytes m base k).length = k := by simp [spriteBytes]
  rw [hlast, drawRows_append_singleton, hlen]
  exact drawRow_inverts _ _ _ _

/-! ### DRW -/

/-- What DRW composes inverts the pixels its sprite covers (43_display.md R203). -/
theorem drawSprite_inverts (x y : Reg) (n : Nibble) (s : State) :
    Canvas.Inverts (SpriteCovers s x y n) ⟨s.fb, false⟩ (drawSprite x y n s) := by
  have hcovers : SpriteCovers s x y n = fun px py => ∃ r < n.toNat, ∃ c < 8, ((s.reg x).toNat + c) % 64 = px ∧
      ((s.reg y).toNat + r) % 32 = py ∧ (s.mem.read (s.i.toNat + r)).getLsbD (7 - c) = true := by
    funext px py
    simp only [SpriteCovers, exists_and_left]
  rw [hcovers]
  exact drawRows_spriteBytes_inverts _ _ _ _ _ _ (by omega)

/-- DRW completes where its last byte exists, or with no rows (43_display.md R203). -/
theorem exec_drw_of_fits (hfit : n.toNat = 0 ∨ s.i.toNat + n.toNat - 1 < 4096) :
    exec (.drw x y n) s = .next ({ s with fb := (drawSprite x y n s).fb }.setReg Reg.vf
      (flagByte (drawSprite x y n s).collision)).advance :=
  s.ifSpanFits_fits _ _ _ ((spanFits_iff _ _).mpr (by unfold memSize; omega))

/-- What a sprite covers depends on its coordinates, I and memory alone. -/
theorem spriteCovers_congr (hx : t.reg x = s.reg x) (hy : t.reg y = s.reg y) (hi : t.i = s.i) (hmem : t.mem = s.mem) :
    SpriteCovers t x y n = SpriteCovers s x y n := by
  unfold SpriteCovers
  rw [hx, hy, hi, hmem]

/-- The framebuffer CLS writes (43_display.md R201). -/
theorem pixel_allOff (px py : Nat) : pixel (Vector.replicate 32 (Vector.replicate 64 false)) px py = false := by
  simp [pixel]

end display

/-- Settles O45: CLS cannot fault, and VF is not among the parts it writes. -/
theorem clearTurnsEveryPixelOff : Obligations.ClearTurnsEveryPixelOff := fun _ =>
  ⟨decodeWord_encode .cls, _, rfl, pixel_allOff, rfl, exec_frame_of_not_mayFault (i := .cls) rfl rfl⟩

/-- Settles O46: what DRW composes inverts the covered pixels, its collision is the flag, and it advanced, so it did not
fault. -/
theorem drawXorsCoveredPixels : Obligations.DrawXorsCoveredPixels := by
  intro x y n s hfit
  have hexec := exec_drw_of_fits (x := x) (y := y) hfit
  obtain ⟨-, hinverted, hkept, hcollides⟩ := drawSprite_inverts x y n s
  have hframe := exec_frame_of_advanced hexec rfl
  refine ⟨_, hexec, fun px py hx hy => ⟨hinverted px py, hkept px py hx hy⟩, fun hon => ?_, fun hoff => ?_,
    fun r hr => ?_, rfl, hframe.mono (by simp [Instr.writes])⟩
  · have hc : (drawSprite x y n s).collision = true := hcollides.mpr (.inr hon)
    rw [State.reg_advance, State.reg_setReg_self, hc]
    rfl
  · have hc : (drawSprite x y n s).collision = false :=
      Bool.eq_false_iff.mpr fun hc => hoff ((hcollides.mp hc).resolve_left Bool.false_ne_true)
    rw [State.reg_advance, State.reg_setReg_self, hc]
    rfl
  · exact State.reg_setReg_ne _ _ _ _ (List.mem_singleton.not.mp hr)

/-- Settles O47: the second draw covers the same pixels and inverts them back; those that are on when it comes are those
that were off before the first. -/
theorem drawTwiceRestores : Obligations.DrawTwiceRestores := by
  intro x y n s hx hy hfit
  obtain ⟨t, ht, htpixel, -, -, htregs, -, htframe⟩ := drawXorsCoveredPixels x y n s hfit
  have hi : t.i = s.i := htframe .i (by decide)
  have hmem : t.mem = s.mem := (htframe .mem (by decide)).1
  have hcovers : SpriteCovers t x y n = SpriteCovers s x y n :=
    spriteCovers_congr (htregs x (by simpa using hx)) (htregs y (by simpa using hy)) hi hmem
  obtain ⟨u, hu, hupixel, huon, huoff, -⟩ := drawXorsCoveredPixels x y n t (hi ▸ hfit)
  rw [hcovers] at hupixel huon huoff
  refine ⟨t, u, ht, hu, Framebuffer.ext_pixel _ _ fun px py hpx hpy => ?_, ?_⟩
  · obtain ⟨htinverted, htkept⟩ := htpixel px py hpx hpy
    obtain ⟨huinverted, hukept⟩ := hupixel px py hpx hpy
    by_cases hc : SpriteCovers s x y n px py
    · rw [huinverted hc, htinverted hc, Bool.not_not]
    · rw [hukept hc, htkept hc]
  · have hflag : u.reg Reg.vf = 1 ↔ ∃ px py, SpriteCovers s x y n px py ∧ pixel t.fb px py = true :=
      ⟨fun hvf => by_contra fun hnone => absurd ((huoff hnone).symm.trans hvf) (by decide), huon⟩
    refine hflag.trans (exists₂_congr fun px py => and_congr_right fun hc => ?_)
    obtain ⟨hpx, hpy⟩ := (drawSprite_inverts x y n s).inside px py hc
    rw [(htpixel px py hpx hpy).1 hc, Bool.not_eq_true']

end Sys2Proof.Machine
end

section
/-! Timers (44_timers.md R220 to R222): the two timers written from a register, and DT read into one. -/

namespace Sys2Proof.Machine

/-- Settles O48: none of the three can fault; the two loads of a timer write it and PC, and LD Vx,DT writes one
register. -/
theorem timerInstructions : Obligations.TimerInstructions := fun x s =>
  ⟨decodeWord_ofNat (toNat_formatX_familyF x 0x15), decodeWord_ofNat (toNat_formatX_familyF x 0x18),
    decodeWord_ofNat (toNat_formatX_familyF x 0x07),
    ⟨_, rfl, rfl, rfl, exec_frame_of_not_mayFault (i := .ldDtVx x) rfl rfl⟩,
    ⟨_, rfl, rfl, rfl, rfl, exec_frame_of_not_mayFault (i := .ldStVx x) rfl rfl⟩,
    ⟨_, rfl, s.setReg_advance_onlyReg x s.dt⟩⟩

end Sys2Proof.Machine
end

section
/-! Input (45_input.md R230 to R235): the key skips, and the key wait from its arming to the press that ends it. -/

namespace Sys2Proof.Machine

section input

variable {x k : Reg} {s : State}

/-! ### The key skips -/

/-- The low nibble selects the key (45_input.md R230, decision D15). -/
theorem keyPressed_of_val (hk : k.val = (s.reg x).toNat % 16) : keyPressed s x = s.key[k] := by
  obtain rfl : k = lowNibble (s.reg x) := Fin.ext (hk.trans (lowNibble_val _).symm)
  rfl

theorem State.skipIf_not_onlyPc (s : State) (c : Bool) :
    OnlyPc s (s.skipIf !c) (if c = true then s.pc + 2 else s.pc + 4) := by
  cases c <;> exact s.skipIf_onlyPc _

/-! ### The two outcomes of a poll (45_input.md R234) -/

/-- The poll takes the lowest key that went down since the last sample. -/
theorem newKey_of_lowest {now prev : Keys} (hnow : now[k] = true) (hprev : prev[k] = false)
    (hlow : ∀ j : Reg, j < k → ¬ (now[j] = true ∧ prev[j] = false)) : newKey now prev = some k := by
  cases h : newKey now prev with
  | none => exact absurd ⟨hnow, hprev⟩ ((newKey_none_iff now prev).mp h k)
  | some j =>
    obtain ⟨hj, hj', hle⟩ := newKey_some now prev j h
    have hge : k ≤ j := not_lt.mp fun hlt => hlow j hlt ⟨hj, hj'⟩
    exact congrArg some (le_antisymm (hle k hnow hprev) hge)

/-- A step of a waiting core that sees key k go down. -/
theorem step_of_newKey_some (hf : s.fault = 0) (hw : s.wait = true) (h : newKey s.key s.keyPrev = some k) :
    step s = .next { s.setReg s.waitX (BitVec.ofNat 8 k.val) with wait := false, pc := s.pc + 2 } := by
  rw [step_waiting s hf hw, State.keyWaitPoll, h]

/-- A step of a waiting core that sees no key go down. -/
theorem step_of_newKey_none (hf : s.fault = 0) (hw : s.wait = true) (h : newKey s.key s.keyPrev = none) :
    step s = .next { s with keyPrev := s.key } := by
  rw [step_waiting s hf hw, State.keyWaitPoll, h]

theorem State.resolve_frame (s : State) (x : Reg) (b : Byte) (pc : Word) :
    UnchangedBut [.v, .pc, .wait] s { s.setReg x b with wait := false, pc := pc } := by
  refine .of_parts _ _ _ ?_ ?_ ?_ ?_ ?_ ?_ ?_ ?_ ?_ ?_ ?_ ?_ ?_ <;> simp

theorem State.resample_frame (s : State) (keys : Keys) : UnchangedBut [.wait] s { s with keyPrev := keys } := by
  refine .of_parts _ _ _ ?_ ?_ ?_ ?_ ?_ ?_ ?_ ?_ ?_ ?_ ?_ ?_ ?_ <;> simp [State.reg]

/-- After a sample no key counts as going down until KEY changes. -/
theorem newKey_self (keys : Keys) : newKey keys keys = none :=
  (newKey_none_iff keys keys).mpr fun _ ⟨hdown, hup⟩ => Bool.noConfusion (hdown.symm.trans hup)

/-! ### Steps alone -/

theorem run_succ_of_step (M : Host.Core) (n : Nat) {s t : M.State} (h : M.step s = .next t) :
    M.run (n + 1) s = M.run n t := by
  rw [Host.Core.run, h]

/-- Any number of polls that see no key go down: each leaves a sample no key differs from, so the next sees none
either (45_input.md R234, decision D22). -/
theorem run_of_newKey_none (n : Nat) (hf : s.fault = 0) (hw : s.wait = true) (h : newKey s.key s.keyPrev = none) :
    ∃ keys : Keys, core.run n s = .next { s with keyPrev := keys } := by
  induction n generalizing s with
  | zero => exact ⟨s.keyPrev, rfl⟩
  | succ n ih =>
    obtain ⟨keys, hrun⟩ := ih (s := { s with keyPrev := s.key }) hf hw (newKey_self s.key)
    exact ⟨keys, (run_succ_of_step core n (step_of_newKey_none hf hw h)).trans hrun⟩

end input

/-- Settles O53: the key is the one the poll takes, a single register is written, and neither outcome touches more than
the wait beside it. -/
theorem keyWaitPollResolvesOnPress : Obligations.KeyWaitPollResolvesOnPress := by
  intro s hf hw
  refine ⟨fun k hnow hprev hlow => ?_, fun hnone => ?_⟩
  · have hstep := step_of_newKey_some hf hw (newKey_of_lowest hnow hprev hlow)
    have hbyte : (BitVec.ofNat 8 k.val).toNat = k.val := by
      rw [BitVec.toNat_ofNat, Nat.mod_eq_of_lt (by omega)]
    refine ⟨_, hstep, rfl, ?_, fun r hr => ?_, rfl, rfl, rfl, s.resolve_frame _ _ _⟩
    · exact (congrArg BitVec.toNat (s.reg_setReg_self _ _)).trans hbyte
    · exact s.reg_setReg_ne _ _ _ (List.mem_singleton.not.mp hr)
  · have hstep := step_of_newKey_none hf hw ((newKey_none_iff _ _).mpr hnone)
    exact ⟨_, hstep, hw, rfl, rfl, s.resample_frame _⟩

/-- Settles O54: after any number of polls only the sample has moved. -/
theorem keyWaitBlocksWithoutPress : Obligations.KeyWaitBlocksWithoutPress := by
  intro n s hf hw hnone
  obtain ⟨keys, hrun⟩ := run_of_newKey_none n hf hw ((newKey_none_iff _ _).mpr hnone)
  exact ⟨_, hrun, hw, rfl, s.resample_frame keys⟩

/-- Settles O51: both are a skip on the level of the key the low nibble selects. -/
theorem skipOnKey : Obligations.SkipOnKey := fun x k s hk => by
  have hskp : exec (.skp x) s = .next (s.skipIf s.key[k]) := keyPressed_of_val hk ▸ rfl
  have hsknp : exec (.sknp x) s = .next (s.skipIf !s.key[k]) := keyPressed_of_val hk ▸ rfl
  exact ⟨⟨_, hskp, s.skipIf_onlyPc _⟩, ⟨_, hsknp, s.skipIf_not_onlyPc _⟩⟩

/-- Settles O52: LD Vx,K cannot fault, and the three parts of the wait are all it writes. -/
theorem keyWaitArms : Obligations.KeyWaitArms := fun x _ =>
  ⟨_, rfl, rfl, rfl, rfl, exec_frame_of_not_mayFault (i := .ldVxK x) rfl rfl⟩

end Sys2Proof.Machine
end

section
/-! The fatal conditions and the halted state (60_exceptions.md R250 to R257): which instruction raises which condition
and where, what the record holds, and that a halted core stays as it is. -/

namespace Sys2Proof

open Machine (State Fatal spanFits)

/-- How many bytes an instruction accesses through I: none, but for four of them (20_memory.md R68). -/
def Instr.accessCount : Instr → Nat
  | .drw _ _ n => n.toNat
  | .ldB _ => 3
  | .storeRegs x | .loadRegs x => x.val + 1
  | _ => 0

/-- The fatal condition an instruction raises when executed in a state, if any (60_exceptions.md R252 (b), R253,
R254). -/
def Instr.fatalAt (s : State) : Instr → Option Fatal
  | .call _ => if s.sp = 16 then some .stackOverflow else none
  | .ret => if s.sp = 0 then some .stackUnderflow else none
  | i => if spanFits s.i.toNat i.accessCount then none else some .outOfBounds

end Sys2Proof

namespace Sys2Proof.Machine

section fatal

variable {i : Instr} {s t : State} {f : Fatal}

/-! ### Which instruction raises what -/

/-- `Instr.fatalAt` is what `exec` raises. -/
theorem exec_of_fatalAt (h : i.fatalAt s = some f) : exec i s = .next (s.raise f (encode i)) := by
  cases i
  case call nnn =>
    obtain ⟨hfull, rfl⟩ : s.sp = 16 ∧ .stackOverflow = f := by simpa [Instr.fatalAt] using h
    exact exec_call_of_full nnn (congrArg BitVec.toNat hfull)
  case ret =>
    obtain ⟨hempty, rfl⟩ : s.sp = 0 ∧ .stackUnderflow = f := by simpa [Instr.fatalAt] using h
    exact exec_ret_of_empty (congrArg BitVec.toNat hempty)
  case drw | ldB | storeRegs | loadRegs =>
    obtain ⟨hfit, rfl⟩ : _ = false ∧ .outOfBounds = f := by simpa [Instr.fatalAt] using h
    exact s.ifSpanFits_raises _ _ _ hfit
  all_goals simp [Instr.fatalAt, Instr.accessCount, spanFits] at h

/-- Where `Instr.fatalAt` names none, the fault record stays. -/
theorem exec_fault_of_fatalAt_none (h : exec i s = .next t) (hnone : i.fatalAt s = none) : t.fault = s.fault := by
  cases i
  case call nnn =>
    rcases execCall_cases nnn s t h with ⟨-, rfl⟩ | ⟨hfull, -⟩
    · rfl
    · simp [Instr.fatalAt, hfull] at hnone
  case ret =>
    rcases execRet_cases s t h with ⟨hempty, -⟩ | ⟨-, -, rfl⟩
    · simp [Instr.fatalAt, hempty] at hnone
    · rfl
  case drw | ldB | storeRegs | loadRegs =>
    rcases State.ifSpanFits_cases _ _ _ _ _ h with ⟨-, rfl⟩ | ⟨hfit, -⟩
    · rfl
    · simp [Instr.fatalAt, Instr.accessCount, hfit] at hnone
  all_goals cases h; rfl

/-- The codes tell the fatal conditions apart (60_exceptions.md R250). -/
theorem fatalCode_inj {f g : Fatal} : fatalCode f = fatalCode g ↔ f = g := by
  cases f <;> cases g <;> decide

/-- From a state with no fault, an instruction leaves a fatal condition's code exactly where it raises that
condition. -/
theorem exec_fault_iff (hf : s.fault = 0) (h : exec i s = .next t) (f : Fatal) :
    t.fault.toNat = (fatalCode f).toNat ↔ i.fatalAt s = some f := by
  rw [BitVec.toNat_inj]
  cases hat : i.fatalAt s with
  | none =>
    have htf : t.fault = 0 := (exec_fault_of_fatalAt_none h hat).trans hf
    simpa [htf] using (fatalCode_ne_zero f).symm
  | some g =>
    obtain rfl : s.raise g (encode i) = t := Host.Outcome.next.inj ((exec_of_fatalAt hat).symm.trans h)
    simpa using fatalCode_inj

/-- The same, the next state not given. -/
theorem exec_raises_iff (hf : s.fault = 0) (f : Fatal) :
    (∃ t, exec i s = .next t ∧ t.fault.toNat = (fatalCode f).toNat) ↔ i.fatalAt s = some f :=
  ⟨fun ⟨_, h, hcode⟩ => (exec_fault_iff hf h f).mp hcode, fun hat => ⟨_, exec_of_fatalAt hat, rfl⟩⟩

/-! ### Where each condition is raised -/

/-- No instruction raises UnknownInstruction when executed (60_exceptions.md R251). -/
theorem fatalAt_ne_unknownInstruction : i.fatalAt s ≠ some .unknownInstruction := by
  cases i <;> simp [Instr.fatalAt]

/-- OutOfBounds is raised where the span accessed through I does not exist (60_exceptions.md R252 (b)). -/
theorem fatalAt_outOfBounds_iff :
    i.fatalAt s = some .outOfBounds ↔ i.accessCount ≠ 0 ∧ s.i.toNat + i.accessCount > memSize := by
  cases i
  case call | ret => simp [Instr.fatalAt, Instr.accessCount]
  all_goals simp [Instr.fatalAt, spanFits]

/-- StackOverflow is raised by CALL on a full stack (60_exceptions.md R253). -/
theorem fatalAt_stackOverflow_iff :
    i.fatalAt s = some .stackOverflow ↔ (∃ nnn, i = .call nnn) ∧ s.sp.toNat = 16 := by
  cases i <;> simp [Instr.fatalAt, BitVec.toNat_eq]

/-- StackUnderflow is raised by RET on an empty stack (60_exceptions.md R254). -/
theorem fatalAt_stackUnderflow_iff : i.fatalAt s = some .stackUnderflow ↔ i = .ret ∧ s.sp.toNat = 0 := by
  cases i <;> simp [Instr.fatalAt, BitVec.toNat_eq]

/-! ### A step that faults -/

/-- An instruction that leaves a fault raised it, with its own word, and did nothing else (60_exceptions.md R256). -/
theorem exec_raised (hf : s.fault = 0) (h : exec i s = .next t) (hne : t.fault ≠ 0) :
    ∃ f, t = s.raise f (encode i) := by
  rcases exec_fault_or_frame h with ⟨-, hraise⟩ | hframe
  · exact hraise
  · exact absurd ((hframe .fault fault_not_mem_writes).1.trans hf) hne

/-- What FAULT_OP receives (60_exceptions.md R255, decision D35): the word at PC, or 0x0000 where none is fetched. -/
def State.faultingWord (s : State) : Word :=
  if s.pc.toNat ≥ 0xFFF then 0x0000 else wordOfBytes (s.mem.read s.pc.toNat) (s.mem.read (s.pc.toNat + 1))

theorem State.faultingWord_of_fetch {w : Word} (h : fetchWord s.mem s.pc.toNat = some w) : s.faultingWord = w := by
  obtain ⟨hpc, hw⟩ := (fetchWord_some_iff _ _ _).mp h
  exact (if_neg (by omega)).trans hw.symm

/-- A step of a running core that leaves a fault raised it, with the word at PC, and did nothing else. -/
theorem step_raised (hr : s.Running) (h : step s = .next t) (hne : t.fault ≠ 0) :
    ∃ f, t = s.raise f s.faultingWord := by
  rcases step_next_cases s t h with ⟨hhalt, -⟩ | ⟨-, hw, -⟩ | ⟨-, hpc, rfl⟩ | ⟨-, w, e, hfetch, -, rfl⟩ |
    ⟨-, w, i, hfetch, hok, hexec⟩
  · exact absurd hr.1 hhalt
  · simp [hr.2] at hw
  · exact ⟨_, by rw [State.faultingWord, if_pos hpc]⟩
  · exact ⟨_, by rw [State.faultingWord_of_fetch hfetch]⟩
  · rw [State.faultingWord_of_fetch hfetch, ← encode_of_decodeWord hok]
    exact exec_raised hr.1 hexec hne

end fatal

/-- Settles O10: an illegal word is the decoder's to refuse, and no instruction it accepts raises this condition. -/
theorem unknownInstructionExactlyOnIllegalWord : Obligations.UnknownInstructionExactlyOnIllegalWord := by
  intro s w hf hw hfetch
  have hraise (hill : illegalWord w = true) : step s = .next (s.raise .unknownInstruction w) := by
    obtain ⟨e, he⟩ := decodeWord_error_iff.mpr hill
    exact step_of_error ⟨hf, hw⟩ hfetch he
  refine ⟨⟨?_, fun hill => ⟨_, hraise hill, rfl⟩⟩, fun hill => ⟨_, hraise hill, s.raise_recorded _ w⟩⟩
  rintro ⟨t, hstep, hcode⟩
  cases hd : decodeWord w with
  | error e => exact decodeWord_error_iff.mp ⟨e, hd⟩
  | ok i =>
    have hexec : exec i s = .next t := (step_of_ok ⟨hf, hw⟩ hfetch hd).symm.trans hstep
    exact absurd ((exec_fault_iff hf hexec .unknownInstruction).mp hcode) fatalAt_ne_unknownInstruction

/-- Settles O11: the four conditions are those of a span through I that goes beyond memory. -/
theorem outOfBoundsExactlyBeyondMemory : Obligations.OutOfBoundsExactlyBeyondMemory := by
  intro i s t hf h
  refine (exec_fault_iff hf h .outOfBounds).trans (fatalAt_outOfBounds_iff.trans ?_)
  cases i
  case drw | ldB | storeRegs | loadRegs => simp [Instr.accessCount, memSize]; omega
  all_goals simp [Instr.accessCount]

/-- Settles O13: CALL and RET raise the two, where SP is 16 and 0. -/
theorem stackFaultsExactlyOnFullCallAndEmptyRet : Obligations.StackFaultsExactlyOnFullCallAndEmptyRet := fun _ _ hf =>
  ⟨(exec_raises_iff hf .stackOverflow).trans fatalAt_stackOverflow_iff,
    (exec_raises_iff hf .stackUnderflow).trans fatalAt_stackUnderflow_iff⟩

/-- Settles O15: a step that leaves a fault did nothing but raise it. -/
theorem faultingStepIsPrecise : Obligations.FaultingStepIsPrecise := by
  intro s t hf hw h hne
  obtain ⟨f, rfl⟩ := step_raised ⟨hf, hw⟩ h hne
  exact ⟨s.raise_frame f _, rfl, rfl⟩

end Sys2Proof.Machine
end

section
/-! The host's operations (60_exceptions.md R257, R260 to R265): what each request does to a session, what runs of them
do to a halted one, and the display view. -/

namespace Sys2Proof.Machine

section requests

variable {s : State} {u u' : Session} {r : Request} {reply : Reply}

/-! ### The frames of the operations -/

theorem State.tickTimers_frame (s : State) : UnchangedBut [.dt, .st] s s.tickTimers := by
  refine .of_parts _ _ _ ?_ ?_ ?_ ?_ ?_ ?_ ?_ ?_ ?_ ?_ ?_ ?_ ?_ <;> simp [State.reg]

theorem State.setKey_frame (s : State) (index : Nat) (pressed : Bool) :
    UnchangedBut [.key] s (s.setKey index pressed) := by
  refine .of_parts _ _ _ ?_ ?_ ?_ ?_ ?_ ?_ ?_ ?_ ?_ ?_ ?_ ?_ ?_ <;> simp [State.reg]

theorem State.loadImage_frame (s : State) (image : List Byte) : UnchangedBut [.mem] s (s.loadImage image) := by
  refine .of_parts _ _ _ ?_ ?_ ?_ ?_ ?_ ?_ ?_ ?_ ?_ ?_ ?_ ?_ ?_ <;> simp [State.reg]

/-! ### Requests, case by case -/

theorem Session.apply_load_of_fits {image : List Byte} (hopen : u.loadOpen = true) (hlen : image.length ≤ 3584) :
    u.apply (.load image) = .next (⟨u.core.loadImage image, false⟩, .done) := by
  simp [Session.apply, imageFits, hopen, hlen]

theorem Session.apply_load_of_oversized {image : List Byte} (hopen : u.loadOpen = true) (hlen : image.length > 3584) :
    u.apply (.load image) = .next (u, .outOfBounds) := by
  simp [Session.apply, imageFits, hopen, hlen]

theorem Session.apply_load_of_closed (image : List Byte) (hclosed : u.loadOpen = false) :
    u.apply (.load image) = .refused .loadOutOfOrder := by
  simp [Session.apply, hclosed]

theorem Session.apply_step_of_next {t : State} (h : step u.core = .next t) :
    u.apply .step = .next (⟨t, false⟩, .done) := by
  simp [Session.apply, h]

theorem Session.apply_setKey_of_ok {index : Nat} (pressed : Bool) (h : index ≤ 15) :
    u.apply (.setKey index pressed) = .next (⟨u.core.setKey index pressed, u.loadOpen⟩, .done) := by
  simp [Session.apply, keyIndexOk, h]

theorem Session.apply_setKey_of_beyond {index : Nat} (pressed : Bool) (h : index > 15) :
    u.apply (.setKey index pressed) = .next (u, .keyIndexRefused) := by
  simp [Session.apply, keyIndexOk, h]

/-! ### Runs -/

theorem Session.run_cons_of_apply (rs : List Request) (h : u.apply r = .next (u', reply)) :
    u.run (r :: rs) = u'.run rs := by
  rw [Session.run, h]

/-- A run that answers a session took its first request, and the rest from there. -/
theorem Session.run_cons_cases {rs : List Request} (h : u.run (r :: rs) = .next u') :
    ∃ v reply, u.apply r = .next (v, reply) ∧ v.run rs = .next u' := by
  rw [Session.run] at h
  split at h
  · exact ⟨_, _, ‹_›, h⟩
  · cases h
  · cases h

/-! ### The halted state (60_exceptions.md R257) -/

/-- A session whose core is halted and where no `load` may come, which only a reset ends. -/
structure Session.Halted (u : Session) : Prop where
  core : u.core.Halted
  loadClosed : u.loadOpen = false

/-- Under the invariant no `load` may come to a halted core: it has taken the step that halted it (R306). -/
theorem Session.Inv.halted (hu : u.Inv) (hf : u.core.Halted) : u.Halted :=
  ⟨hf, Bool.eq_false_of_not_eq_true fun hopen => hf (hu.loadOpen hopen).1⟩

/-- A halted session takes any request but a reset with no change to its core but in the timers and the keys. -/
theorem Session.Halted.apply_frame (hu : u.Halted) (hr : r ≠ .reset) (h : u.apply r = .next (u', reply)) :
    UnchangedBut [.dt, .st, .key] u.core u'.core ∧ u'.loadOpen = false := by
  obtain ⟨hf, hclosed⟩ := hu
  cases r with
  | reset => exact absurd rfl hr
  | load image =>
    rw [Session.apply_load_of_closed image hclosed] at h
    cases h
  | step =>
    rw [Session.apply_step_of_next (step_halted u.core hf)] at h
    cases h
    exact ⟨.refl _ _, rfl⟩
  | tickTimers =>
    cases h
    exact ⟨u.core.tickTimers_frame.mono (by simp), hclosed⟩
  | setKey index pressed =>
    rcases Nat.lt_or_ge 15 index with hbeyond | hok
    · rw [Session.apply_setKey_of_beyond pressed hbeyond] at h
      cases h
      exact ⟨.refl _ _, hclosed⟩
    · rw [Session.apply_setKey_of_ok pressed hok] at h
      cases h
      exact ⟨(u.core.setKey_frame index pressed).mono (by simp), hclosed⟩

/-- It stays halted, since the fault record is not among what changes. -/
theorem Session.Halted.apply (hu : u.Halted) (hr : r ≠ .reset) (h : u.apply r = .next (u', reply)) : u'.Halted := by
  obtain ⟨hframe, hclosed⟩ := hu.apply_frame hr h
  obtain ⟨hfault, -, -⟩ := hframe .fault (by decide)
  exact ⟨fun hnone => hu.core (hfault.symm.trans hnone), hclosed⟩

/-- A run without a reset, request by request. -/
theorem Session.Halted.run_frame {requests : List Request} (hu : u.Halted) (hreset : Request.reset ∉ requests)
    (h : u.run requests = .next u') : UnchangedBut [.dt, .st, .key] u.core u'.core := by
  induction requests generalizing u with
  | nil =>
    cases h
    exact .refl _ _
  | cons r rs ih =>
    obtain ⟨hr, hrs⟩ := List.ne_and_not_mem_of_not_mem_cons hreset
    obtain ⟨v, reply, happly, hrun⟩ := Session.run_cons_cases h
    exact (hu.apply_frame hr.symm happly).1.trans (ih (hu.apply hr.symm happly) hrs hrun)

/-! ### Ticks (60_exceptions.md R260) -/

/-- A tick is a subtraction that stops at 0. -/
theorem tickTimer_toNat (t : Byte) : (tickTimer t).toNat = t.toNat - 1 := by
  unfold tickTimer
  split
  · simp_all
  · bv_omega

theorem Session.run_tick (n : Nat) (u : Session) :
    u.run (List.replicate (n + 1) .tickTimers) =
      (Session.mk u.core.tickTimers u.loadOpen).run (List.replicate n .tickTimers) :=
  Session.run_cons_of_apply _ rfl

/-! ### The display view (60_exceptions.md R265) -/

/-- The view is the framebuffer's rows, one after the other. -/
theorem State.displayView_eq_flatten (s : State) : s.displayView = s.fb.flatten.toList := by
  simp only [State.displayView, Vector.flatten, List.flatMap_def, Vector.toList, Array.toList_flatten,
    Array.toList_map, List.map_map]
  rfl

theorem flatten_getElem?_pixel (fb : Framebuffer) {x y : Nat} (hx : x < 64) (hy : y < 32) :
    fb.flatten[64 * y + x]? = some (pixel fb x y) := by
  have hrow : (64 * y + x) / 64 = y := by omega
  have hcol : (64 * y + x) % 64 = x := by omega
  have hpos : 64 * y + x < 32 * 64 := by omega
  rw [Vector.getElem?_eq_getElem hpos, Vector.getElem_flatten hpos]
  simp [hrow, hcol, pixel, Nat.mod_eq_of_lt hx, Nat.mod_eq_of_lt hy]

end requests

/-- Settles O16: a halted session stays halted through every request but a reset, and none moves more than the timers
and the keys. -/
theorem haltedUntilReset : Obligations.HaltedUntilReset := fun u hu hf =>
  ⟨step_halted u.core hf, fun _ _ hreset hrun => (hu.halted hf).run_frame hreset hrun⟩

/-- Settles O49: each timer is ticked on its own, by the same rule. -/
theorem tickDecrementsNonzeroTimers : Obligations.TickDecrementsNonzeroTimers := by
  intro s
  have htick (t : Byte) : (tickTimer t).toNat = if t.toNat > 0 then t.toNat - 1 else 0 := by
    rw [tickTimer_toNat]
    split <;> omega
  exact ⟨htick s.dt, htick s.st, s.tickTimers_frame⟩

/-- Settles O50, by induction on the number of ticks. -/
theorem manyTicksReachZero : Obligations.ManyTicksReachZero := by
  intro n
  induction n with
  | zero => exact fun u => ⟨u, rfl, rfl, rfl, .refl _ _⟩
  | succ n ih =>
    intro u
    obtain ⟨u', hrun, hdt, hst, hframe⟩ := ih ⟨u.core.tickTimers, u.loadOpen⟩
    refine ⟨u', (Session.run_tick n u).trans hrun, ?_, ?_, u.core.tickTimers_frame.trans hframe⟩
    · rw [hdt, State.tickTimers_dt, tickTimer_toNat]
      omega
    · rw [hst, State.tickTimers_st, tickTimer_toNat]
      omega

/-- Settles O55: an index of a key writes that entry of the latch alone; any other is refused. -/
theorem setKeyWritesOneKey : Obligations.SetKeyWritesOneKey := by
  intro u index pressed
  refine ⟨fun hok => ⟨_, Session.apply_setKey_of_ok pressed hok, rfl, fun k => ?_, u.core.setKey_frame index pressed⟩,
    Session.apply_setKey_of_beyond pressed⟩
  simp [Vector.getElem_setIfInBounds, eq_comm]

/-- Settles O56: an image that fits ends within memory, so each of its bytes is read back. -/
theorem loadPlacesImage : Obligations.LoadPlacesImage := by
  intro u image hm
  refine ⟨fun hopen hlen => ?_, Session.apply_load_of_oversized, Session.apply_load_of_closed image⟩
  have hspan : progBase + image.length ≤ memSize := by unfold progBase memSize; omega
  exact ⟨_, Session.apply_load_of_fits hopen hlen,
    fun k hk => Memory.read_writeBytes_inside image u.core.mem progBase k hk hm hspan,
    Memory.read_writeBytes_outside image u.core.mem progBase, u.core.loadImage_frame image⟩

/-- Settles O57: the view is the rows flattened, and position 64 y + x is column x of row y. -/
theorem displayViewIsRowMajor : Obligations.DisplayViewIsRowMajor := by
  intro s
  rw [s.displayView_eq_flatten]
  refine ⟨Vector.length_toList, fun x y hx hy => ?_⟩
  rw [Vector.getElem?_toList]
  exact flatten_getElem?_pixel s.fb hx hy

end Sys2Proof.Machine
end

section
/-! Reset and the host's protocol (10_state.md R33, R37; 70_reset_and_hazards.md R300, R306, R311): the values reset
leaves, and the session's invariant through every interleaving of requests. -/

namespace Sys2Proof.Machine

section protocol

variable {s : State} {u : Session}

/-! ### The core's invariant under the host's operations -/

/-- Reset leaves the state after reset, with the count of random bytes going on (log 1). -/
theorem State.applyReset_frame (s : State) : UnchangedBut [.draws] State.reset s.applyReset := by
  refine .of_parts _ _ _ ?_ ?_ ?_ ?_ ?_ ?_ ?_ ?_ ?_ ?_ ?_ ?_ ?_ <;> simp [State.applyReset, State.reg]

theorem State.applyReset_inv (s : State) : s.applyReset.Inv := { resetSatisfiesInv.1 with }

theorem State.Inv.tickTimers (hs : s.Inv) : s.tickTimers.Inv := { hs with }

theorem State.Inv.setKey (hs : s.Inv) (index : Nat) (pressed : Bool) : (s.setKey index pressed).Inv := { hs with }

/-- An image of at most 3584 bytes ends within memory, so loading it keeps memory canonical (60_exceptions.md R263). -/
theorem State.Inv.loadImage (hs : s.Inv) {image : List Byte} (hlen : image.length ≤ 3584) :
    (s.loadImage image).Inv :=
  have hspan : progBase + image.length ≤ memSize := by unfold progBase memSize; omega
  { hs with memCanonical := Memory.wf_writeBytes image s.mem progBase hs.memCanonical hspan }

/-! ### The session's invariant -/

/-- A `load` out of its place is refused (70_reset_and_hazards.md R306, decision D26); any other request is answered and
keeps the invariant. -/
theorem Session.Inv.apply (hu : u.Inv) (r : Request) :
    (∃ u' reply, u.apply r = .next (u', reply) ∧ u'.Inv) ∨ u.apply r = .refused .loadOutOfOrder := by
  cases r with
  | reset => exact .inl ⟨_, _, rfl, u.core.applyReset_inv, fun _ => ⟨rfl, rfl⟩⟩
  | load image =>
    cases hopen : u.loadOpen with
    | false => exact .inr (Session.apply_load_of_closed image hopen)
    | true =>
      rcases Nat.lt_or_ge 3584 image.length with hover | hfit
      · exact .inl ⟨u, _, Session.apply_load_of_oversized hopen hover, hu⟩
      · exact .inl ⟨_, _, Session.apply_load_of_fits hopen hfit, hu.core.loadImage hfit, fun h => by cases h⟩
  | step =>
    obtain ⟨t, ht⟩ := stepAlwaysAnswers u.core hu.core
    exact .inl ⟨_, _, Session.apply_step_of_next ht, stepKeepsInv u.core t hu.core ht, fun h => by cases h⟩
  | tickTimers => exact .inl ⟨_, _, rfl, hu.core.tickTimers, hu.loadOpen⟩
  | setKey index pressed =>
    rcases Nat.lt_or_ge 15 index with hbeyond | hok
    · exact .inl ⟨u, _, Session.apply_setKey_of_beyond pressed hbeyond, hu⟩
    · exact .inl ⟨_, _, Session.apply_setKey_of_ok pressed hok, hu.core.setKey index pressed, hu.loadOpen⟩

theorem Session.run_cons_of_refused {r : Request} {f : Refusal} (rs : List Request) (h : u.apply r = .refused f) :
    u.run (r :: rs) = .refused f := by
  rw [Session.run, h]

/-! ### The values after reset -/

theorem pixel_reset (x y : Nat) : pixel State.reset.fb x y = false := by
  simp [pixel, State.reset]

/-- No byte is listed at reset, and the font's 80 bytes end at 0x04F (10_state.md R33, R37). -/
theorem Memory.read_reset_beyond_font {a : Nat} (ha : a ≥ 0x050) : State.reset.mem.read a = 0 := by
  have hbeyond : fontBytes.length ≤ a - fontBase := ha
  show resetByte a = 0
  rw [resetByte, List.getD_eq_default _ _ hbeyond, ite_self]

/-- Where nothing is loaded, the first word fetched is 0x0000, which no instruction has (30_encoding.md R103). -/
theorem step_reset : step State.reset = .next (State.reset.raise .unknownInstruction 0x0000) :=
  step_of_error (e := .family0 0x0000) ⟨rfl, rfl⟩ rfl rfl

end protocol

/-- Settles O21, by induction on the requests. -/
theorem everyInterleavingKeepsInv : Obligations.EveryInterleavingKeepsInv := by
  intro u requests hu
  induction requests generalizing u with
  | nil => exact .inl ⟨u, rfl, hu⟩
  | cons r rs ih =>
    rcases hu.apply r with ⟨u', reply, happly, hu'⟩ | hrefused
    · rw [Session.run_cons_of_apply rs happly]
      exact ih u' hu'
    · exact .inr (Session.run_cons_of_refused rs hrefused)

/-- Settles O17: the fields of the state after reset are literals; what needs an argument is the framebuffer, the memory
above the font, the first step, and reset from any session. -/
theorem resetValues : Obligations.ResetValues := by
  have hentry {α : Type} (b : α) (k : Fin 16) : (Vector.replicate 16 b)[k] = b := Vector.getElem_replicate k.isLt
  exact ⟨hentry _, rfl, rfl, rfl, hentry _, rfl, rfl, pixel_reset, hentry _, rfl, rfl, hentry _, rfl, rfl, by decide,
    fun _ => Memory.read_reset_beyond_font, ⟨_, step_reset, State.reset.raise_recorded .unknownInstruction 0x0000⟩,
    fun u => ⟨_, rfl, rfl, u.core.applyReset_frame, rfl⟩⟩

end Sys2Proof.Machine
end
